-- ==== Sys2Proof/Word.lean ====
section
/-! DEFINITION. The word types of the block (spec/00_scope.md R8: every value is unsigned, bit 0 is the least
significant bit). -/

namespace Sys2Proof

/-- An unsigned 8-bit value: a byte of a sequence, an operand field, a colour channel. -/
abbrev Byte := BitVec 8

/-- The 16-bit value of the checksum accumulator (10_state.md R23). -/
abbrev Crc := BitVec 16

/-- A 32-bit command word (30_encoding.md R61), also the width of STATUS (10_state.md R24). -/
abbrev Word := BitVec 32

end Sys2Proof
end

