-- ==== Sys2Proof/Config.lean ====
section
/-! DEFINITION. The configuration constants of spec/00_scope.md R6 and R7: fixed for the life of a block, read as
data by no command, and no part of the state (10_state.md R27). `REPORT_ID`, which has no value, is an argument of the
host's definitions (Machine/HostSide.lean; log 6). -/

namespace Sys2Proof

/-- The four constants that R7 makes configuration fields, with R6's values as defaults.
UNVERIFIED (log 5): the spec says its literals are unaudited. Unsafe if the hardware's values differ. -/
structure Config where
  /-- `REPORT_LEN`, the length L of FBUF in bytes. -/
  reportLen : Nat := 129
  /-- `FRAME_OPCODE`, three bytes. -/
  frameOpcode : List Byte := [0x59#8, 0xA5#8, 0x0A#8]
  /-- `CRC_SEED`. -/
  crcSeed : Crc := 0xFFFF#16
  /-- `CRC_POLY`, in reflected form. -/
  crcPoly : Crc := 0xA001#16
deriving DecidableEq, Repr

/-- The reference hardware: every field at the value of R6. -/
def Config.hardware : Config := {}

/-- `MAX_RECORDS` (R6, R7: a fixed constant). -/
def Config.maxRecords : Nat := 16

/-- `RECORD_BYTES` (R6, R7: a fixed constant). -/
def Config.recordBytes : Nat := 4

end Sys2Proof
end

