-- ==== Sys2Proof/Syntax.lean ====
section
/-! DEFINITION. What crosses the command port: the sixteen commands of spec/opcode_table.json, the command and reset
events of the port (spec/30_encoding.md R60), and the data formats a command's byte sequences carry (R67, R68, R71). -/

namespace Sys2Proof

/-- The sixteen commands (30_encoding.md R63), each with the operand fields `A`, `B`, `C` that R63 does not mark "0".
The data-in sequence is no part of the command word: it stands beside it in `Command`. -/
inductive Instr where
  /-- QNT.CH: quantize the channel `c` (R104). -/
  | qntCh (c : Byte)
  /-- QNT.RGB: quantize three channels (R105). -/
  | qntRgb (r g b : Byte)
  /-- QNT.HEX: quantize a hex colour string (R106). -/
  | qntHex
  /-- DQN.CH: limit and rescale one value (R107). -/
  | dqnCh (v : Byte)
  /-- DQN.HEX: render three values as `#rrggbb` (R108). -/
  | dqnHex (r g b : Byte)
  /-- REC.ENC: encode one LED record (R120). -/
  | recEnc
  /-- REC.DEC: decode one LED record (R121). -/
  | recDec
  /-- CRC.INIT: seed the accumulator (R143). -/
  | crcInit
  /-- CRC.BYTE: advance the accumulator by one byte (R144). -/
  | crcByte (b : Byte)
  /-- CRC.READ: read the accumulator (R145). -/
  | crcRead
  /-- CRC.SPAN: checksum of a region for the record count `c` (R146). -/
  | crcSpan (c : Byte)
  /-- FRM.BUILD: assemble a frame of `n` records with the given nonce (R160). -/
  | frmBuild (n nonce0 nonce1 : Byte)
  /-- FRM.PARSE: disassemble the frame in FBUF (R162). -/
  | frmParse
  /-- FB.LOAD: load a report into FBUF (R180). -/
  | fbLoad
  /-- FB.READ: read FBUF (R181). -/
  | fbRead
  /-- ST.READ: read STATUS (R182). -/
  | stRead
deriving DecidableEq, Repr

/-- One request on the command port (30_encoding.md R60): the pair `(CW, DIN)`, with the number of the host that
issued it (60_exceptions.md R213; log 1). -/
structure Command where
  host : Nat
  cw   : Word
  din  : List Byte
deriving DecidableEq, Repr

/-- What the outside world can do to the block: issue a command (30_encoding.md R60) or request a reset, which is
taken between commands (70_reset_and_hazards.md R230). -/
inductive PortEvent where
  | command (c : Command)
  | reset
deriving DecidableEq, Repr

/-- The response to a command (30_encoding.md R60): the pair `(STATUS, DOUT)`, addressed to the host that issued
the command. -/
structure Response where
  host   : Nat
  status : Word
  dout   : List Byte
deriving DecidableEq, Repr

/-- A colour as three byte-wide channels. -/
structure Rgb where
  r : Byte
  g : Byte
  b : Byte
deriving DecidableEq, Repr

/-- An LED descriptor (30_encoding.md R67): the unpacked form of one LED record, one byte a field. The bytes are
unchecked; `checkDescriptor` (41_record.md R122) checks them. -/
structure Descriptor where
  ledId     : Byte
  colorMode : Byte
  ledMode   : Byte
  color1    : Rgb
  color2    : Rgb
deriving DecidableEq, Repr

/-- An LED record (30_encoding.md R68): four bytes. -/
structure Record where
  byte0 : Byte
  byte1 : Byte
  byte2 : Byte
  byte3 : Byte
deriving DecidableEq, Repr

/-- The colour modes, in the order of their ordinals 0 to 4 (30_encoding.md R71). -/
inductive ColorMode where
  | color1 | color2 | color1Dim2 | color2Dim1 | color1Pulse2
deriving DecidableEq, Repr

/-- The LED modes, in the order of their ordinals 0 to 4 (30_encoding.md R71). -/
inductive LedMode where
  | off | constant | slowBlink | fastBlink | ultraBlink
deriving DecidableEq, Repr

end Sys2Proof
end

