-- ==== Sys2Proof/WellFormed.lean ====
section
/-! DEFINITION. Decidable well-formedness checks: of a configuration (spec/00_scope.md R6), of a command word against
the rows of spec/opcode_table.json (30_encoding.md R64, R65), of a command's data-in length (R63), and of an LED
descriptor (R67). Every term of `Instr` is well-formed as a command word: its operands are bytes by their type. -/

namespace Sys2Proof

/-- A legal configuration: `REPORT_LEN >= 8` (00_scope.md R6, 92_eei_decisions.md D14) and a frame opcode of three
bytes. -/
def Config.wellFormed (cfg : Config) : Bool :=
  8 ≤ cfg.reportLen && cfg.frameOpcode.length = 3

/-- A row of the opcode table: a word belongs to the row when its bits under `mask` are those of `pattern`. -/
structure OpRow where
  pattern : Word
  mask    : Word
deriving DecidableEq, Repr

/-- The sixteen rows of spec/opcode_table.json, in the table's order. -/
def opcodeTable : List OpRow :=
  [⟨0x00000010#32, 0xFFFF00FF#32⟩, ⟨0x00000011#32, 0x000000FF#32⟩, ⟨0x00000012#32, 0xFFFFFFFF#32⟩,
   ⟨0x00000013#32, 0xFFFF00FF#32⟩, ⟨0x00000014#32, 0x000000FF#32⟩] ++
  [⟨0x00000020#32, 0xFFFFFFFF#32⟩, ⟨0x00000021#32, 0xFFFFFFFF#32⟩] ++
  [⟨0x00000030#32, 0xFFFFFFFF#32⟩, ⟨0x00000031#32, 0xFFFF00FF#32⟩, ⟨0x00000032#32, 0xFFFFFFFF#32⟩,
   ⟨0x00000033#32, 0xFFFF00FF#32⟩] ++
  [⟨0x00000040#32, 0x000000FF#32⟩, ⟨0x00000041#32, 0xFFFFFFFF#32⟩] ++
  [⟨0x00000050#32, 0xFFFFFFFF#32⟩, ⟨0x00000051#32, 0xFFFFFFFF#32⟩, ⟨0x00000052#32, 0xFFFFFFFF#32⟩]

/-- The word belongs to the row. -/
def OpRow.covers (row : OpRow) (w : Word) : Bool := w &&& row.mask == row.pattern

/-- A legal command word: some row of the table covers it (R64: a defined op-select and every field marked "0"
zero). -/
def legalWord (w : Word) : Bool := opcodeTable.any fun row => row.covers w

/-- The DIN column of 30_encoding.md R63 for a block of the given configuration. -/
def Instr.acceptsDin (cfg : Config) (i : Instr) (din : List Byte) : Bool :=
  match i with
  | .qntHex => true
  | .recEnc => din.length == 9
  | .recDec => din.length == 4
  | .crcSpan c => 3 * (c.toNat + 1) ≤ din.length
  | .frmBuild n _ _ => din.length == 9 * n.toNat
  | .fbLoad => din.length == cfg.reportLen
  | .qntCh _ | .qntRgb _ _ _ | .dqnCh _ | .dqnHex _ _ _ | .crcInit | .crcByte _ | .crcRead | .frmParse
  | .fbRead | .stRead => din.length == 0

/-- The legal channel values of a descriptor's colour (R67). -/
def Rgb.quantized (c : Rgb) : Bool := c.r ≤ 7#8 && c.g ≤ 7#8 && c.b ≤ 7#8

/-- The legal values of a descriptor's fields (R67): both ordinals 0 to 4, every channel 0 to 7, any `led_id`. -/
def Descriptor.wellFormed (d : Descriptor) : Bool :=
  d.colorMode ≤ 4#8 && d.ledMode ≤ 4#8 && d.color1.quantized && d.color2.quantized

end Sys2Proof
end

