-- ==== Sys2Proof/Decode.lean ====
section
/-! DEFINITION. Command words: the fields of spec/30_encoding.md R61, the total decoder of R74, the encoder from the
table of R63, and both as little-endian bytes (R62). -/

namespace Sys2Proof

/-- Why a command word, or a byte sequence read as one, is no command. -/
inductive DecodeError where
  /-- `OP` is no defined op-select (30_encoding.md R65). -/
  | opsel
  /-- A field that R63 marks "0" is not zero (R64). -/
  | reservedField
  /-- Fewer than four bytes: not a whole command word (R66). DESIGN CHOICE (log 15), safe: the port of R60 carries
  whole words, so the machine never meets it. -/
  | truncated
deriving DecidableEq, Repr

/-- `OP`, bits [7:0] (R61). -/
def opField (w : Word) : Byte := w.extractLsb' 0 8
/-- `A`, bits [15:8] (R61). -/
def aField (w : Word) : Byte := w.extractLsb' 8 8
/-- `B`, bits [23:16] (R61). -/
def bField (w : Word) : Byte := w.extractLsb' 16 8
/-- `C`, bits [31:24] (R61). -/
def cField (w : Word) : Byte := w.extractLsb' 24 8

/-- The word `{C, B, A, OP}` (R62). -/
def commandWord (op a b c : Byte) : Word := c ++ b ++ a ++ op

/-- A command all of whose fields `A`, `B`, `C` are marked "0". -/
def takesNoField (w : Word) (i : Instr) : Except DecodeError Instr :=
  if aField w = 0#8 ∧ bField w = 0#8 ∧ cField w = 0#8 then .ok i else .error .reservedField

/-- A command that uses `A` and whose fields `B` and `C` are marked "0". -/
def takesA (w : Word) (i : Byte → Instr) : Except DecodeError Instr :=
  if bField w = 0#8 ∧ cField w = 0#8 then .ok (i (aField w)) else .error .reservedField

/-- A command that uses all three fields. -/
def takesABC (w : Word) (i : Byte → Byte → Byte → Instr) : Except DecodeError Instr :=
  .ok (i (aField w) (bField w) (cField w))

/-- The decoding procedure of R74, total on every word: the op-select first, then the fields marked "0". -/
def decode (w : Word) : Except DecodeError Instr :=
  match (opField w).toNat with
  | 0x10 => takesA w .qntCh
  | 0x11 => takesABC w .qntRgb
  | 0x12 => takesNoField w .qntHex
  | 0x13 => takesA w .dqnCh
  | 0x14 => takesABC w .dqnHex
  | 0x20 => takesNoField w .recEnc
  | 0x21 => takesNoField w .recDec
  | 0x30 => takesNoField w .crcInit
  | 0x31 => takesA w .crcByte
  | 0x32 => takesNoField w .crcRead
  | 0x33 => takesA w .crcSpan
  | 0x40 => takesABC w .frmBuild
  | 0x41 => takesNoField w .frmParse
  | 0x50 => takesNoField w .fbLoad
  | 0x51 => takesNoField w .fbRead
  | 0x52 => takesNoField w .stRead
  | _ => .error .opsel

/-- The command word of a command, from the table of R63. -/
def encode : Instr → Word
  | .qntCh c => commandWord 0x10#8 c 0#8 0#8
  | .qntRgb r g b => commandWord 0x11#8 r g b
  | .qntHex => commandWord 0x12#8 0#8 0#8 0#8
  | .dqnCh v => commandWord 0x13#8 v 0#8 0#8
  | .dqnHex r g b => commandWord 0x14#8 r g b
  | .recEnc => commandWord 0x20#8 0#8 0#8 0#8
  | .recDec => commandWord 0x21#8 0#8 0#8 0#8
  | .crcInit => commandWord 0x30#8 0#8 0#8 0#8
  | .crcByte b => commandWord 0x31#8 b 0#8 0#8
  | .crcRead => commandWord 0x32#8 0#8 0#8 0#8
  | .crcSpan c => commandWord 0x33#8 c 0#8 0#8
  | .frmBuild n x y => commandWord 0x40#8 n x y
  | .frmParse => commandWord 0x41#8 0#8 0#8 0#8
  | .fbLoad => commandWord 0x50#8 0#8 0#8 0#8
  | .fbRead => commandWord 0x51#8 0#8 0#8 0#8
  | .stRead => commandWord 0x52#8 0#8 0#8 0#8

/-- A command word as bytes: `OP`, `A`, `B`, `C` (R62). -/
def wordToBytes (w : Word) : List Byte := [opField w, aField w, bField w, cField w]

/-- The decoder on a byte-wide port (R62, R66): one word of four bytes, and what follows it. -/
def decodeBytes : List Byte → Except DecodeError (Instr × List Byte)
  | op :: a :: b :: c :: rest => (decode (commandWord op a b c)).map fun i => (i, rest)
  | _ => .error .truncated

/-- The encoder on a byte-wide port. -/
def encodeBytes (i : Instr) : List Byte := wordToBytes (encode i)

/-- The command the decoder reads from a word of the opcode table given by its low `nbits` bits, laid out as the
four little-endian bytes of R62. -/
def decodeTableWord (nbits w : Nat) : Option Instr :=
  match decodeBytes (wordToBytes (BitVec.ofNat 32 (w % 2 ^ nbits))) with
  | .ok (i, _) => some i
  | .error _ => none

end Sys2Proof
end

