-- ==== Sys2Proof/Machine/State.lean ====
section
/-! DEFINITION. The state of the block (spec/10_state.md R20) and of its command port (30_encoding.md R60), as plain
data; the state after reset (10_state.md R29); and the reasons a step can stop. -/

namespace Sys2Proof.Machine

/-- Why the machine stops. -/
inductive Fault where
  /-- An access outside FBUF, whose offsets are 0 to L-1 (10_state.md R22). Raised by FRM.BUILD, FRM.PARSE, FB.LOAD
  and FB.READ when an offset they name does not exist; with a legal configuration (`Config.wellFormed`) their own
  checks keep every access inside, so it is never raised there. Safe (log 8): the machine stops. -/
  | noSuchOffset
deriving DecidableEq, Repr

/-- Why the model gives a command no meaning. -/
inductive Refusal where
  /-- Raised by an arm of `exec` that has no meaning yet; no arm does. Safe: the machine stops. -/
  | notModelled (mnemonic : String)
deriving DecidableEq, Repr

/-- The contents of FBUF: (offset, byte) pairs in canonical form. An offset that is not listed holds 0x00, the
reset contents of every byte (10_state.md R29; log 7). -/
abbrev Memory := List Host.Cell

/-- Canonical form: offsets strictly rising, and no listed byte 0x00. -/
def Memory.wf : Memory → Bool
  | [] => true
  | [cell] => cell.2 != 0#8
  | cell :: next :: rest => cell.2 != 0#8 && decide (cell.1 < next.1) && Memory.wf (next :: rest)

/-- STATUS (10_state.md R24), field by field. Its reserved bits are hardwired 0 and not stored; `Status.word` reads
the whole register (log 14). -/
structure Status where
  /-- ERR, bits [2:0]. -/
  err   : BitVec 3
  /-- MATCH, bit [3]. -/
  mtch  : Bool
  /-- CAUSE, bits [15:8]. -/
  cause : Byte
  /-- INDEX, bits [23:16]. -/
  index : Byte
deriving DecidableEq, Repr

/-- The block's three items of state (10_state.md R20), and the model's picture of the command port: the events the
port has yet to accept, in the order it accepts them, and the response the last step returned. No step reads `response`
or carries it over, and a command reads of `input` only the DIN it came with (10_state.md R27; log 1, log 3). -/
structure State where
  /-- CRC_ACC (10_state.md R23). -/
  crcAcc   : Crc
  /-- FBUF (10_state.md R22). -/
  fbuf     : Memory
  /-- STATUS (10_state.md R24). -/
  status   : Status
  /-- The port events to come: the first is the next one accepted. -/
  input    : List PortEvent
  /-- The output of the step that led to this state: the response it returned, if it performed a command. -/
  response : Option Response
deriving DecidableEq, Repr

/-- What a step, and the meaning of a command, answers. -/
abbrev Result := Host.Outcome State Fault Refusal

/-- The state after reset of a block with the given configuration (10_state.md R29). -/
def State.resetWith (cfg : Config) : State :=
  { crcAcc := cfg.crcSeed
    fbuf := []
    status := { err := 0#3, mtch := false, cause := 0x00#8, index := 0xFF#8 }
    input := []
    response := none }

/-- The state after reset of the reference hardware: CRC_ACC = 0xFFFF, FBUF all zero, STATUS = 0x00FF0000
(10_state.md R29, 70_reset_and_hazards.md R230). -/
def State.reset : State := State.resetWith Config.hardware

end Sys2Proof.Machine
end

