-- ==== Sys2Proof/Machine/Flags.lean ====
section
/-! DEFINITION. STATUS: its error classes and causes (spec/10_state.md R25, 60_exceptions.md R202, R203), what a
command's completion writes to it (R200, R201), and the register read as one word (10_state.md R24). -/

namespace Sys2Proof.Machine

/-- The values of STATUS.ERR that have a name (10_state.md R25). The block itself writes only `none`, `format`,
`capacity` and `illegalCommand`; the other two are the host's transport's (60_exceptions.md R211). -/
inductive ErrClass where
  | none | format | capacity | deviceMismatch | transport | illegalCommand
deriving DecidableEq, Repr

/-- The number of an error class (10_state.md R25). -/
def ErrClass.code : ErrClass → BitVec 3
  | .none => 0#3
  | .format => 1#3
  | .capacity => 2#3
  | .deviceMismatch => 3#3
  | .transport => 4#3
  | .illegalCommand => 5#3

/-- The errors the block raises (60_exceptions.md R203). The three that a descriptor or record raises carry the
index that R122 reports: its number in FRM.BUILD and FRM.PARSE, 0xFF in REC.ENC and REC.DEC. -/
inductive CmdError where
  | hexLen
  | hexChar
  | colorMode (index : Byte)
  | ledMode (index : Byte)
  | colorRange (index : Byte)
  | dataLen
  | parseCount
  | count
  | frameLen
  | opsel
  | reservedField
deriving DecidableEq, Repr

/-- The class of an error (60_exceptions.md R203). -/
def CmdError.errClass : CmdError → ErrClass
  | .hexLen | .hexChar | .colorMode _ | .ledMode _ | .colorRange _ | .dataLen | .parseCount => .format
  | .count | .frameLen => .capacity
  | .opsel | .reservedField => .illegalCommand

/-- The cause code of an error (60_exceptions.md R203). -/
def CmdError.cause : CmdError → Byte
  | .hexLen => 0x01#8
  | .hexChar => 0x02#8
  | .colorMode _ => 0x03#8
  | .ledMode _ => 0x04#8
  | .colorRange _ => 0x05#8
  | .dataLen => 0x06#8
  | .parseCount => 0x07#8
  | .count => 0x01#8
  | .frameLen => 0x02#8
  | .opsel => 0x01#8
  | .reservedField => 0x02#8

/-- The value STATUS.INDEX takes (60_exceptions.md R203): 0xFF but for an indexed error. -/
def CmdError.index : CmdError → Byte
  | .colorMode i | .ledMode i | .colorRange i => i
  | .hexLen | .hexChar | .dataLen | .parseCount | .count | .frameLen | .opsel | .reservedField => 0xFF#8

/-- STATUS after `raise` (60_exceptions.md R200): ERR, CAUSE and INDEX written, MATCH kept. -/
def Status.failed (st : Status) (e : CmdError) : Status :=
  { st with err := e.errClass.code, cause := e.cause, index := e.index }

/-- STATUS after `done` (60_exceptions.md R201): no error, MATCH kept. -/
def Status.succeeded (st : Status) : Status :=
  { st with err := ErrClass.none.code, cause := 0x00#8, index := 0xFF#8 }

/-- STATUS read as one 32-bit value (10_state.md R24): the reserved bits [7:4] and [31:24] read as 0. -/
def Status.word (st : Status) : Word :=
  0#8 ++ st.index ++ st.cause ++ 0#4 ++ BitVec.ofBool st.mtch ++ st.err

end Sys2Proof.Machine
end

