-- ==== Sys2Proof/Machine/Ops.lean ====
section
/-! DEFINITION. The shared operations: reads and writes of FBUF (spec/00_scope.md R10), byte order (20_memory.md R43),
the two ends of a command, `raise` (60_exceptions.md R200) and `done` (R201), and reset (70_reset_and_hazards.md R230).
There is no return from an error (60_exceptions.md R210). -/

namespace Sys2Proof.Machine

/-- The byte at an offset. -/
def Memory.read : Memory → Nat → Byte
  | [], _ => 0#8
  | (k, v) :: rest, a => if a = k then v else Memory.read rest a

/-- Put a byte in front of cells of higher offsets: 0x00 is not listed. -/
def Memory.cons (a : Nat) (b : Byte) (m : Memory) : Memory :=
  if b = 0#8 then m else (a, b) :: m

/-- Write the byte at an offset, keeping the canonical form. -/
def Memory.write : Memory → Nat → Byte → Memory
  | [], a, b => Memory.cons a b []
  | (k, v) :: rest, a, b =>
    if a < k then Memory.cons a b ((k, v) :: rest)
    else if a = k then Memory.cons a b rest
    else (k, v) :: Memory.write rest a b

/-- The `n` bytes from an offset on. -/
def Memory.readBytes (m : Memory) (a : Nat) : Nat → List Byte
  | 0 => []
  | n + 1 => m.read a :: Memory.readBytes m (a + 1) n

/-- Write a byte sequence from an offset on. -/
def Memory.writeBytes (m : Memory) (a : Nat) : List Byte → Memory
  | [] => m
  | b :: bs => Memory.writeBytes (m.write a b) (a + 1) bs

/-- `MemRead(addr, n)` of 00_scope.md R10; `none` where an offset is outside FBUF (log 8). -/
def memRead (cfg : Config) (m : Memory) (a n : Nat) : Option (List Byte) :=
  if a + n ≤ cfg.reportLen then some (m.readBytes a n) else none

/-- `MemWrite(addr, n, v)` of 00_scope.md R10, with n the length of v; `none` where an offset is outside FBUF. -/
def memWrite (cfg : Config) (m : Memory) (a : Nat) (v : List Byte) : Option Memory :=
  if a + v.length ≤ cfg.reportLen then some (m.writeBytes a v) else none

/-- `zeros(k)` of 00_scope.md R9. -/
def zeros (k : Nat) : List Byte := List.replicate k 0#8

/-- A checksum as bytes, little-endian (20_memory.md R43). -/
def crcBytes (v : Crc) : List Byte := [v.extractLsb' 0 8, v.extractLsb' 8 8]

/-- The DIN of the command on the port: of the event at the head of `input`. Empty where no command stands there
(log 11: only `step` calls `exec`, with a command at the head). -/
def State.din (s : State) : List Byte :=
  match s.input with
  | .command c :: _ => c.din
  | _ => []

/-- The host that issued the command on the port. -/
def State.host (s : State) : Nat :=
  match s.input with
  | .command c :: _ => c.host
  | _ => 0

/-- The command on the port is over: its response `(STATUS, DOUT)` is returned to the host that issued it, with
STATUS as it stands after the command, and the port accepts the next event (30_encoding.md R60). -/
def State.respond (s : State) (dout : List Byte) : State :=
  { s with input := s.input.tail, response := some ⟨s.host, s.status.word, dout⟩ }

/-- `raise` (60_exceptions.md R200), given the state with no write staged: only STATUS is written, MATCH keeps its
value, and DOUT is empty. -/
def raise (e : CmdError) (s : State) : Result :=
  .next ({ s with status := s.status.failed e }.respond [])

/-- The spec's `done` (60_exceptions.md R201), given the state with the staged writes in effect: STATUS reports
success and DOUT is returned. -/
def complete (dout : List Byte) (s : State) : Result :=
  .next ({ s with status := s.status.succeeded }.respond dout)

/-- `done_keep_status` (44_buffer_status.md R182): success, with STATUS as it was. -/
def completeKeepStatus (dout : List Byte) (s : State) : Result := .next (s.respond dout)

/-- The outcome of a word the decoder rejects: IllegalCommand (30_encoding.md R64, R65, R74). A word on the port is
whole, so `truncated` does not occur; it is reported as OPSEL (log 15). -/
def illegal (e : DecodeError) (s : State) : Result :=
  match e with
  | .opsel => raise .opsel s
  | .reservedField => raise .reservedField s
  | .truncated => raise .opsel s

/-- Taking a reset (70_reset_and_hazards.md R230): every item of state at its reset value; the events still to come
are the outside world's and stay (log 9). -/
def takeReset (s : State) : Result := .next { State.reset with input := s.input.tail }

/-- No event stands at the port: the block waits. No item of state changes (log 2), and the response returned by the
step before is not kept (10_state.md R27; log 3). -/
def idle (s : State) : Result := .next { s with response := none }

end Sys2Proof.Machine
end

