-- ==== Sys2Proof/Machine/Operands.lean ====
section
/-! DEFINITION. The forms in which a command's data-in carries its operands: hex colour strings (spec/30_encoding.md
R72, 40_color.md R103), LED descriptors (30_encoding.md R67, 41_record.md R122) and LED records (30_encoding.md R68 to
R70), with the ordinals of the modes (R71). -/

namespace Sys2Proof

/-- The ordinal of a colour mode (30_encoding.md R71). -/
def ColorMode.ordinal : ColorMode → Byte
  | .color1 => 0#8
  | .color2 => 1#8
  | .color1Dim2 => 2#8
  | .color2Dim1 => 3#8
  | .color1Pulse2 => 4#8

/-- The ordinal of an LED mode (30_encoding.md R71). -/
def LedMode.ordinal : LedMode → Byte
  | .off => 0#8
  | .constant => 1#8
  | .slowBlink => 2#8
  | .fastBlink => 3#8
  | .ultraBlink => 4#8

/-- The nine bytes of a descriptor, in the order of 30_encoding.md R67. -/
def Descriptor.bytes (d : Descriptor) : List Byte :=
  [d.ledId, d.colorMode, d.ledMode, d.color1.r, d.color1.g, d.color1.b, d.color2.r, d.color2.g, d.color2.b]

/-- A nine-byte sequence as a descriptor; `none` for any other length. -/
def Descriptor.ofBytes : List Byte → Option Descriptor
  | [d0, d1, d2, d3, d4, d5, d6, d7, d8] => some ⟨d0, d1, d2, ⟨d3, d4, d5⟩, ⟨d6, d7, d8⟩⟩
  | _ => none

/-- The four bytes of a record (30_encoding.md R68). -/
def Record.bytes (r : Record) : List Byte := [r.byte0, r.byte1, r.byte2, r.byte3]

/-- A four-byte sequence as a record; `none` for any other length. -/
def Record.ofBytes : List Byte → Option Record
  | [r0, r1, r2, r3] => some ⟨r0, r1, r2, r3⟩
  | _ => none

end Sys2Proof

namespace Sys2Proof.Machine

/-- The value of a hex digit byte, `none` for any other byte (30_encoding.md R72). -/
def hexDigit (x : Byte) : Option Nat :=
  if 0x30 ≤ x.toNat ∧ x.toNat ≤ 0x39 then some (x.toNat - 0x30)
  else if 0x41 ≤ x.toNat ∧ x.toNat ≤ 0x46 then some (x.toNat - 0x41 + 10)
  else if 0x61 ≤ x.toNat ∧ x.toNat ≤ 0x66 then some (x.toNat - 0x61 + 10)
  else none

/-- The values of a sequence of hex digit bytes, `none` if one of them is no hex digit. -/
def hexDigits : List Byte → Option (List Nat)
  | [] => some []
  | x :: xs =>
    match hexDigit x, hexDigits xs with
    | some h, some hs => some (h :: hs)
    | _, _ => none

/-- A hex colour string without its leading `#`, of which at most one is removed (R72). -/
def stripHash : List Byte → List Byte
  | [] => []
  | x :: xs => if x = 0x23#8 then xs else x :: xs

/-- `parse_hex` (40_color.md R103): the length check, then the character check; a 3-digit form doubles each digit. -/
def parseHex (str : List Byte) : Except CmdError Rgb :=
  if (stripHash str).length ≠ 3 ∧ (stripHash str).length ≠ 6 then .error .hexLen
  else
    match hexDigits (stripHash str) with
    | none => .error .hexChar
    | some [r, g, b] => .ok ⟨BitVec.ofNat 8 (17 * r), BitVec.ofNat 8 (17 * g), BitVec.ofNat 8 (17 * b)⟩
    | some [r1, r0, g1, g0, b1, b0] =>
      .ok ⟨BitVec.ofNat 8 (16 * r1 + r0), BitVec.ofNat 8 (16 * g1 + g0), BitVec.ofNat 8 (16 * b1 + b0)⟩
    | some _ => .error .hexLen

/-- A sequence of descriptors, `DIN[9i .. 9i+8]` for i = 0, 1, ... (43_frame.md R160). -/
def descriptorsOf : List Byte → List Descriptor
  | d0 :: d1 :: d2 :: d3 :: d4 :: d5 :: d6 :: d7 :: d8 :: rest =>
    ⟨d0, d1, d2, ⟨d3, d4, d5⟩, ⟨d6, d7, d8⟩⟩ :: descriptorsOf rest
  | _ => []

/-- A sequence of records, the bytes `8+4i .. 11+4i` of a frame for i = 0, 1, ... (20_memory.md R41). -/
def recordsOf : List Byte → List Record
  | r0 :: r1 :: r2 :: r3 :: rest => ⟨r0, r1, r2, r3⟩ :: recordsOf rest
  | _ => []

/-- `check_descriptor(d, i)` (41_record.md R122): the first check that fails is reported, with index `i`. -/
def checkDescriptor (d : Descriptor) (i : Byte) : Option CmdError :=
  if d.colorMode > 4#8 then some (.colorMode i)
  else if d.ledMode > 4#8 then some (.ledMode i)
  else if d.color1.r > 7#8 ∨ d.color1.g > 7#8 ∨ d.color1.b > 7#8 ∨ d.color2.r > 7#8 ∨ d.color2.g > 7#8 ∨
      d.color2.b > 7#8 then some (.colorRange i)
  else none

/-- The low three bits of a byte. -/
def low3 (b : Byte) : BitVec 3 := b.extractLsb' 0 3

/-- The 24-bit packed group G of a descriptor (30_encoding.md R69). -/
def packGroup (d : Descriptor) : BitVec 24 :=
  low3 d.colorMode ++ low3 d.ledMode ++ low3 d.color2.b ++ low3 d.color2.g ++ low3 d.color2.r ++
    low3 d.color1.b ++ low3 d.color1.g ++ low3 d.color1.r

/-- `pack_record(d)` (30_encoding.md R69): the group's bytes are swapped, least significant first. -/
def packRecord (d : Descriptor) : Record :=
  { byte0 := d.ledId
    byte1 := (packGroup d).extractLsb' 0 8
    byte2 := (packGroup d).extractLsb' 8 8
    byte3 := (packGroup d).extractLsb' 16 8 }

/-- The three bits of a group from bit `lo` on, as a byte. -/
def field3 (g : BitVec 24) (lo : Nat) : Byte := (g.extractLsb' lo 3).setWidth 8

/-- `unpack_record(r)` (30_encoding.md R70). -/
def unpackRecord (r : Record) : Descriptor :=
  let g : BitVec 24 := r.byte3 ++ r.byte2 ++ r.byte1
  { ledId := r.byte0
    colorMode := field3 g 21
    ledMode := field3 g 18
    color1 := ⟨field3 g 0, field3 g 3, field3 g 6⟩
    color2 := ⟨field3 g 9, field3 g 12, field3 g 15⟩ }

/-- The record bytes of the descriptors from number `i` on, or the error of the first descriptor that fails its
check (43_frame.md R160). -/
def encodeRecords (i : Nat) : List Descriptor → Except CmdError (List Byte)
  | [] => .ok []
  | d :: ds =>
    match checkDescriptor d (BitVec.ofNat 8 i) with
    | some e => .error e
    | none =>
      match encodeRecords (i + 1) ds with
      | .error e => .error e
      | .ok recs => .ok ((packRecord d).bytes ++ recs)

/-- The descriptor bytes of the records from number `i` on, or the error of the first record whose descriptor fails
its check (43_frame.md R162). -/
def decodeRecords (i : Nat) : List Record → Except CmdError (List Byte)
  | [] => .ok []
  | r :: rs =>
    match checkDescriptor (unpackRecord r) (BitVec.ofNat 8 i) with
    | some e => .error e
    | none =>
      match decodeRecords (i + 1) rs with
      | .error e => .error e
      | .ok ds => .ok ((unpackRecord r).bytes ++ ds)

end Sys2Proof.Machine
end

