-- ==== Sys2Proof/Machine/Buffer.lean ====
section
/-! DEFINITION. Frame-buffer and status access (spec/44_buffer_status.md). A function named after its command takes the
configuration; the meaning is that function at the reference hardware's configuration. -/

namespace Sys2Proof.Machine

/-- FB.LOAD (R180): exactly `REPORT_LEN` bytes, stored unchecked. -/
def fbLoad (cfg : Config) (s : State) : Result :=
  if s.din.length ≠ cfg.reportLen then raise .dataLen s
  else
    match memWrite cfg s.fbuf 0 s.din with
    | none => .fault .noSuchOffset
    | some m => complete [] { s with fbuf := m }

/-- FB.READ (R181). -/
def fbRead (cfg : Config) (s : State) : Result :=
  if s.din.length ≠ 0 then raise .dataLen s
  else
    match memRead cfg s.fbuf 0 cfg.reportLen with
    | none => .fault .noSuchOffset
    | some bytes => complete bytes s

/-- FB.LOAD at the reference hardware. -/
def execFbLoad (s : State) : Result := fbLoad Config.hardware s

/-- FB.READ at the reference hardware. -/
def execFbRead (s : State) : Result := fbRead Config.hardware s

/-- ST.READ (R182): the STATUS of the command before it, little-endian; STATUS is not rewritten on success. -/
def execStRead (s : State) : Result :=
  if s.din.length ≠ 0 then raise .dataLen s else completeKeepStatus (wordToBytes s.status.word) s

end Sys2Proof.Machine
end

