-- ==== Sys2Proof/Machine/Color.lean ====
section
/-! DEFINITION. The colour quantizer and dequantizer (spec/40_color.md). -/

namespace Sys2Proof.Machine

/-- `q3(c)` (R100): an 8-bit channel to 3 bits. -/
def q3 (c : Byte) : Byte := BitVec.ofNat 8 ((7 * c.toNat + 127) / 255)

/-- `dq8(v)` (R101): a 3-bit value to 8 bits. -/
def dq8 (v : Byte) : Byte := BitVec.ofNat 8 ((255 * v.toNat + 3) / 7)

/-- `clamp7(v)` (R102): the 3-bit limiter. -/
def clamp7 (v : Byte) : Byte := if v ≤ 7#8 then v else 7#8

/-- `hexlow(x)` (R108): the lower-case hex digit of a 4-bit value. -/
def hexLow (x : BitVec 4) : Byte :=
  if x.toNat < 10 then BitVec.ofNat 8 (0x30 + x.toNat) else BitVec.ofNat 8 (0x57 + x.toNat)

/-- The two hex digits of a byte, most significant first. -/
def hexPair (w : Byte) : List Byte := [hexLow (w.extractLsb' 4 4), hexLow (w.extractLsb' 0 4)]

/-- QNT.CH (R104). -/
def execQntCh (c : Byte) (s : State) : Result :=
  if s.din.length ≠ 0 then raise .dataLen s else complete [q3 c] s

/-- QNT.RGB (R105). -/
def execQntRgb (r g b : Byte) (s : State) : Result :=
  if s.din.length ≠ 0 then raise .dataLen s else complete [q3 r, q3 g, q3 b] s

/-- QNT.HEX (R106). -/
def execQntHex (s : State) : Result :=
  match parseHex s.din with
  | .error e => raise e s
  | .ok c => complete [q3 c.r, q3 c.g, q3 c.b] s

/-- DQN.CH (R107). -/
def execDqnCh (v : Byte) (s : State) : Result :=
  if s.din.length ≠ 0 then raise .dataLen s else complete [dq8 (clamp7 v)] s

/-- DQN.HEX (R108). -/
def execDqnHex (r g b : Byte) (s : State) : Result :=
  if s.din.length ≠ 0 then raise .dataLen s
  else
    complete (0x23#8 :: (hexPair (dq8 (clamp7 r)) ++ hexPair (dq8 (clamp7 g)) ++ hexPair (dq8 (clamp7 b)))) s

end Sys2Proof.Machine
end

