-- ==== Sys2Proof/Machine/Checksum.lean ====
section
/-! DEFINITION. The CRC-16 checksum engine (spec/42_checksum.md). A function named after its command takes the
configuration; the meaning is that function at the reference hardware's configuration. -/

namespace Sys2Proof.Machine

/-- `n` rounds of the shift of R140: a logical right shift, and an XOR with `CRC_POLY` if the bit shifted out is 1. -/
def crcShift (poly : Crc) : Nat → Crc → Crc
  | 0, acc => acc
  | n + 1, acc => crcShift poly n (if acc.getLsbD 0 then (acc >>> 1) ^^^ poly else acc >>> 1)

/-- `crc16_step(acc, b)` (R140). -/
def crc16Step (cfg : Config) (acc : Crc) (b : Byte) : Crc := crcShift cfg.crcPoly 8 (acc ^^^ b.setWidth 16)

/-- The accumulator after the bytes of a sequence. -/
def crc16From (cfg : Config) (acc : Crc) : List Byte → Crc
  | [] => acc
  | b :: bs => crc16From cfg (crc16Step cfg acc b) bs

/-- `crc16(s)` (R141). -/
def crc16 (cfg : Config) (bytes : List Byte) : Crc := crc16From cfg cfg.crcSeed bytes

/-- `frame_checksum(n, R)` (R142): the first 3(n+1) bytes of the region, and no more. -/
def frameChecksum (cfg : Config) (n : Nat) (region : List Byte) : Crc := crc16 cfg (region.take (3 * (n + 1)))

/-- CRC.INIT (R143). -/
def crcInit (cfg : Config) (s : State) : Result :=
  if s.din.length ≠ 0 then raise .dataLen s else complete [] { s with crcAcc := cfg.crcSeed }

/-- CRC.BYTE (R144). -/
def crcByte (cfg : Config) (b : Byte) (s : State) : Result :=
  if s.din.length ≠ 0 then raise .dataLen s else complete [] { s with crcAcc := crc16Step cfg s.crcAcc b }

/-- CRC.SPAN (R146): DIN must hold the span; bytes after it are ignored. -/
def crcSpan (cfg : Config) (c : Byte) (s : State) : Result :=
  if s.din.length < 3 * (c.toNat + 1) then raise .dataLen s
  else complete (crcBytes (frameChecksum cfg c.toNat s.din)) { s with crcAcc := frameChecksum cfg c.toNat s.din }

/-- CRC.INIT at the reference hardware. -/
def execCrcInit (s : State) : Result := crcInit Config.hardware s

/-- CRC.BYTE at the reference hardware. -/
def execCrcByte (b : Byte) (s : State) : Result := crcByte Config.hardware b s

/-- CRC.READ (R145). -/
def execCrcRead (s : State) : Result :=
  if s.din.length ≠ 0 then raise .dataLen s else complete (crcBytes s.crcAcc) s

/-- CRC.SPAN at the reference hardware. -/
def execCrcSpan (c : Byte) (s : State) : Result := crcSpan Config.hardware c s

end Sys2Proof.Machine
end

