-- ==== Sys2Proof/Machine/Framer.lean ====
section
/-! DEFINITION. The feature-report framer (spec/43_frame.md). A function named after its command takes the
configuration; the meaning is that function at the reference hardware's configuration. -/

namespace Sys2Proof.Machine

/-- The unpadded frame (20_memory.md R42): `FRAME_OPCODE ++ checksum ++ region`. -/
def frameOf (cfg : Config) (n : Byte) (region : List Byte) : List Byte :=
  cfg.frameOpcode ++ crcBytes (frameChecksum cfg n.toNat region) ++ region

/-- FRM.BUILD (R160): capacity first (R164), then the length of DIN, then the descriptors in order. -/
def frmBuild (cfg : Config) (n nonce0 nonce1 : Byte) (s : State) : Result :=
  if n.toNat > Config.maxRecords then raise .count s
  else if 8 + Config.recordBytes * n.toNat > cfg.reportLen then raise .frameLen s
  else if s.din.length ≠ 9 * n.toNat then raise .dataLen s
  else
    match encodeRecords 0 (descriptorsOf s.din) with
    | .error e => raise e s
    | .ok recs =>
      let region := nonce0 :: nonce1 :: n :: recs
      let frame := frameOf cfg n region
      match memWrite cfg s.fbuf 0 (frame ++ zeros (cfg.reportLen - frame.length)) with
      | none => .fault .noSuchOffset
      | some m => complete [] { s with crcAcc := frameChecksum cfg n.toNat region, fbuf := m }

/-- The part of FRM.PARSE after a matching opcode: the count at offset 7 and the records from offset 8 on (R162). -/
def parseRecords (cfg : Config) (s : State) : Result :=
  match memRead cfg s.fbuf 7 1 with
  | some [k] =>
    if k.toNat > Config.maxRecords ∨ 8 + Config.recordBytes * k.toNat > cfg.reportLen then raise .parseCount s
    else
      match memRead cfg s.fbuf 8 (Config.recordBytes * k.toNat) with
      | none => .fault .noSuchOffset
      | some recs =>
        match decodeRecords 0 (recordsOf recs) with
        | .error e => raise e s
        | .ok ds => complete (k :: ds) s
  | _ => .fault .noSuchOffset

/-- FRM.PARSE (R162): MATCH is written as soon as the opcode is compared, and kept if a later check raises. A
mismatch is a success with an empty record list (60_exceptions.md R206). -/
def frmParse (cfg : Config) (s : State) : Result :=
  if s.din.length ≠ 0 then raise .dataLen s
  else
    match memRead cfg s.fbuf 0 3 with
    | none => .fault .noSuchOffset
    | some opcode =>
      if opcode = cfg.frameOpcode then parseRecords cfg { s with status := { s.status with mtch := true } }
      else complete [0#8] { s with status := { s.status with mtch := false } }

/-- FRM.BUILD at the reference hardware. -/
def execFrmBuild (n nonce0 nonce1 : Byte) (s : State) : Result := frmBuild Config.hardware n nonce0 nonce1 s

/-- FRM.PARSE at the reference hardware. -/
def execFrmParse (s : State) : Result := frmParse Config.hardware s

end Sys2Proof.Machine
end

