-- ==== Sys2Proof/Machine/Record.lean ====
section
/-! DEFINITION. The LED record encoder and decoder (spec/41_record.md). -/

namespace Sys2Proof.Machine

/-- REC.ENC (R120). -/
def execRecEnc (s : State) : Result :=
  match Descriptor.ofBytes s.din with
  | none => raise .dataLen s
  | some d =>
    match checkDescriptor d 0xFF#8 with
    | some e => raise e s
    | none => complete (packRecord d).bytes s

/-- REC.DEC (R121). -/
def execRecDec (s : State) : Result :=
  match Record.ofBytes s.din with
  | none => raise .dataLen s
  | some r =>
    match checkDescriptor (unpackRecord r) 0xFF#8 with
    | some e => raise e s
    | none => complete (unpackRecord r).bytes s

end Sys2Proof.Machine
end

