-- ==== Sys2Proof/Machine/Dispatch.lean ====
section
/-! DEFINITION. The meaning of every command: one arm a constructor of `Instr`. -/

namespace Sys2Proof.Machine

/-- The meaning of the command `i`, performed on the state whose port holds it. -/
def exec (i : Instr) (s : State) : Host.Outcome State Fault Refusal :=
  match i with
  | .qntCh c => Sys2Proof.Machine.execQntCh c s
  | .qntRgb r g b => Sys2Proof.Machine.execQntRgb r g b s
  | .qntHex => Sys2Proof.Machine.execQntHex s
  | .dqnCh v => Sys2Proof.Machine.execDqnCh v s
  | .dqnHex r g b => Sys2Proof.Machine.execDqnHex r g b s
  | .recEnc => Sys2Proof.Machine.execRecEnc s
  | .recDec => Sys2Proof.Machine.execRecDec s
  | .crcInit => Sys2Proof.Machine.execCrcInit s
  | .crcByte b => Sys2Proof.Machine.execCrcByte b s
  | .crcRead => Sys2Proof.Machine.execCrcRead s
  | .crcSpan c => Sys2Proof.Machine.execCrcSpan c s
  | .frmBuild n nonce0 nonce1 => Sys2Proof.Machine.execFrmBuild n nonce0 nonce1 s
  | .frmParse => Sys2Proof.Machine.execFrmParse s
  | .fbLoad => Sys2Proof.Machine.execFbLoad s
  | .fbRead => Sys2Proof.Machine.execFbRead s
  | .stRead => Sys2Proof.Machine.execStRead s

end Sys2Proof.Machine
end

