-- ==== Sys2Proof/Machine/Step.lean ====
section
/-! DEFINITION. One step: the port accepts the first event waiting, and the block performs it whole (spec/20_memory.md
R45, R49; 30_encoding.md R60, R74; 70_reset_and_hazards.md R230). -/

namespace Sys2Proof.Machine

/-- One step of the block. A command whose word decodes is performed; any other word is an illegal command; a reset
request is taken; with nothing waiting the block waits. -/
def step (s : State) : Host.Outcome State Fault Refusal :=
  match s.input with
  | [] => idle s
  | .reset :: _ => takeReset s
  | .command c :: _ =>
    match decode c.cw with
    | .ok i => exec i s
    | .error e => illegal e s

/-- The state with the word `w` (of `nbits` bits, zero above) as the command word the next step accepts. A command
that waits at the port keeps its host and its DIN; otherwise a command of host 0 with an empty DIN is put in front
(log 10). -/
def State.withFetchWord (s : State) (nbits w : Nat) : State :=
  { s with
    input :=
      match s.input with
      | .command c :: rest => .command { c with cw := BitVec.ofNat 32 (w % 2 ^ nbits) } :: rest
      | events => .command ⟨0, BitVec.ofNat 32 (w % 2 ^ nbits), []⟩ :: events }

end Sys2Proof.Machine
end

