-- ==== Sys2Proof/Machine/HostSide.lean ====
section
/-! DEFINITION. The host's side of the command port: the pseudo-instructions of spec/30_encoding.md R76 and the send and
receive sequences of 20_memory.md R47, as the commands they expand to. The transport itself is out of scope
(00_scope.md R5; log 12): `ReportWrite` and `ReportRead` are what the host hands to it. -/

namespace Sys2Proof.Machine

/-- A command of a host with its data-in. -/
def issue (host : Nat) (i : Instr) (din : List Byte) : Command := ⟨host, encode i, din⟩

/-- CRC.RUN (R76): CRC.INIT, then CRC.BYTE for each byte, then CRC.READ. -/
def crcRun (host : Nat) (bytes : List Byte) : List Command :=
  issue host .crcInit [] :: (bytes.map fun b => issue host (.crcByte b) []) ++ [issue host .crcRead []]

/-- REC.ENCV (R76): REC.ENC with the descriptor written as operands. -/
def recEncV (host : Nat) (d : Descriptor) : List Command := [issue host .recEnc d.bytes]

/-- The commands of the send sequence (R47): FRM.BUILD, then FB.READ. -/
def sendSequence (host : Nat) (n nonce0 nonce1 : Byte) (ds : List Descriptor) : List Command :=
  [issue host (.frmBuild n nonce0 nonce1) (ds.flatMap Descriptor.bytes), issue host .fbRead []]

/-- The commands of the receive sequence (R47): FB.LOAD of the bytes the channel returned, then FRM.PARSE. -/
def receiveSequence (host : Nat) (report : List Byte) : List Command :=
  [issue host .fbLoad report, issue host .frmParse []]

/-- The arguments of `write_feature_report` (R47). -/
structure ReportWrite where
  reportId : Byte
  bytes    : List Byte
deriving DecidableEq, Repr

/-- The argument of `read_feature_report` (R47). -/
structure ReportRead where
  reportId : Byte
deriving DecidableEq, Repr

/-- What the host writes to the channel at the end of the send sequence: FB.READ's DOUT, under `REPORT_ID` (R47), which
is a parameter (00_scope.md R7; log 6). -/
def reportToWrite (reportId : Byte) (r : Response) : ReportWrite := ⟨reportId, r.dout⟩

/-- What the host asks the channel for at the start of the receive sequence (R47). -/
def reportToRead (reportId : Byte) : ReportRead := ⟨reportId⟩

end Sys2Proof.Machine
end

