-- ==== Sys2Proof/Machine/Assembler.lean ====
section
/-! DEFINITION. The assembler syntax of the spec's listings (spec/30_encoding.md R75): one line of text to one command.
The operands of a line are not checked against the fields marked "0"; the block's decoder does that. Blanks between the
parts of a line are skipped (log 13). -/

namespace Sys2Proof.Machine

/-- The left and right brace. -/
def leftBrace : Char := Char.ofNat 0x7B
/-- See `leftBrace`. -/
def rightBrace : Char := Char.ofNat 0x7D

/-- The text without blanks at its start. -/
def skipBlanks : List Char → List Char
  | [] => []
  | c :: cs => if c = ' ' then skipBlanks cs else c :: cs

/-- The text without blanks at either end. -/
def trimBlanks (t : List Char) : List Char := (skipBlanks (skipBlanks t).reverse).reverse

/-- The text before the first `sep`, and the text after it if there is one. -/
def splitFirst (sep : Char) : List Char → List Char × Option (List Char)
  | [] => ([], none)
  | c :: cs =>
    if c = sep then ([], some cs)
    else (c :: (splitFirst sep cs).1, (splitFirst sep cs).2)

/-- The pieces of a text between its separators. -/
def splitAll (sep : Char) : List Char → List (List Char)
  | [] => [[]]
  | c :: cs =>
    if c = sep then [] :: splitAll sep cs
    else
      match splitAll sep cs with
      | [] => [[c]]
      | piece :: pieces => (c :: piece) :: pieces

/-- A number in the given base (10 or 16) from its digits, continuing from `acc`. -/
def digitsValue (base : Nat) (acc : Nat) : List Char → Option Nat
  | [] => some acc
  | c :: cs =>
    match hexDigit (BitVec.ofNat 8 c.toNat) with
    | some d => if c.toNat < 128 ∧ d < base then digitsValue base (base * acc + d) cs else none
    | none => none

/-- An operand (R75): a decimal number, or `0x` and a hex number; 0 to 255. -/
def operandValue (t : List Char) : Option Byte :=
  let value :=
    match t with
    | [] => none
    | '0' :: 'x' :: c :: cs => digitsValue 16 0 (c :: cs)
    | cs => digitsValue 10 0 cs
  match value with
  | some v => if v ≤ 255 then some (BitVec.ofNat 8 v) else none
  | none => none

/-- The operands of a line: at most three, separated by commas; omitted trailing operands are 0 (R75). -/
def operandFields (t : List Char) : Option (Byte × Byte × Byte) :=
  match trimBlanks t with
  | [] => some (0#8, 0#8, 0#8)
  | t =>
    match (splitAll ',' t).map (fun piece => operandValue (trimBlanks piece)) with
    | [some a] => some (a, 0#8, 0#8)
    | [some a, some b] => some (a, b, 0#8)
    | [some a, some b, some c] => some (a, b, c)
    | _ => none

/-- Hex bytes, two digits each (R75). -/
def hexBytes : List (List Char) → Option (List Byte)
  | [] => some []
  | t :: ts =>
    match t, digitsValue 16 0 t, hexBytes ts with
    | [_, _], some v, some bs => some (BitVec.ofNat 8 v :: bs)
    | _, _, _ => none

/-- The ASCII characters of a quoted data-in up to its closing quote, which ends the line. -/
def quotedBytes : List Char → Option (List Byte)
  | [] => none
  | c :: cs =>
    if c = '"' then (if cs = [] then some [] else none)
    else if c.toNat < 128 then (quotedBytes cs).map fun bs => BitVec.ofNat 8 c.toNat :: bs
    else none

/-- The data-in of a line (R75): hex bytes in braces, or a quoted ASCII string. -/
def dinBytes (t : List Char) : Option (List Byte) :=
  match trimBlanks t with
  | [] => none
  | c :: cs =>
    if c = '"' then quotedBytes cs
    else if c = leftBrace then
      match splitFirst rightBrace cs with
      | (inside, some []) => hexBytes (splitAll ' ' (trimBlanks inside))
      | _ => none
    else none

/-- The op-select of each mnemonic (30_encoding.md R63). -/
def opSelects : List (String × Byte) :=
  [("QNT.CH", 0x10#8), ("QNT.RGB", 0x11#8), ("QNT.HEX", 0x12#8), ("DQN.CH", 0x13#8), ("DQN.HEX", 0x14#8),
   ("REC.ENC", 0x20#8), ("REC.DEC", 0x21#8)] ++
  [("CRC.INIT", 0x30#8), ("CRC.BYTE", 0x31#8), ("CRC.READ", 0x32#8), ("CRC.SPAN", 0x33#8),
   ("FRM.BUILD", 0x40#8), ("FRM.PARSE", 0x41#8)] ++
  [("FB.LOAD", 0x50#8), ("FB.READ", 0x51#8), ("ST.READ", 0x52#8)]

/-- The op-select of a mnemonic. -/
def opSelectOf (name : List Char) : Option Byte :=
  (opSelects.find? fun row => row.1.toList == name).map fun row => row.2

/-- The command of a line (R75): its word `{C, B, A, OP}` and its data-in, empty when omitted. -/
def assemble (host : Nat) (line : List Char) : Option Command :=
  let parts := splitFirst ':' line
  let head := splitFirst ' ' (trimBlanks parts.1)
  let din : Option (List Byte) :=
    match parts.2 with
    | none => some []
    | some t => dinBytes t
  match opSelectOf head.1, operandFields (head.2.getD []), din with
  | some op, some (a, b, c), some din => some ⟨host, commandWord op a b c, din⟩
  | _, _, _ => none

end Sys2Proof.Machine
end

