-- ==== Sys2Proof/Safety.lean ====
section
/-! DEFINITION. The terms the claims are stated in: the invariant of the block, the states after a success and after an
error written out from the spec's layout of STATUS, and commands and runs as a host sees them. -/

namespace Sys2Proof.Machine

/-- Every listed offset exists: 0 to L-1 (10_state.md R22), for the reference hardware's L = 129. -/
def Memory.insideFbuf (m : Memory) : Bool := m.all fun cell => cell.1 < 129

/-- The legal values of STATUS (10_state.md R24, R25; 60_exceptions.md R203): success with CAUSE 0x00 and INDEX 0xFF;
a FormatError with cause 1 to 7, whose INDEX is below 16 only for the causes 3 to 5; a CapacityError or an
IllegalCommand with cause 1 or 2. -/
def Status.legal (st : Status) : Bool :=
  match st.err.toNat with
  | 0 => st.cause == 0x00#8 && st.index == 0xFF#8
  | 1 =>
    if 3 ≤ st.cause.toNat ∧ st.cause.toNat ≤ 5 then st.index.toNat < 16 || st.index == 0xFF#8
    else 1 ≤ st.cause.toNat && st.cause.toNat ≤ 7 && st.index == 0xFF#8
  | 2 | 5 => 1 ≤ st.cause.toNat && st.cause.toNat ≤ 2 && st.index == 0xFF#8
  | _ => false

/-- The response last returned carries STATUS as it stands, and its DOUT is empty if STATUS reports an error, but for
ST.READ's DOUT, which is STATUS itself (30_encoding.md R60, 44_buffer_status.md R182; log 4). -/
def State.responseCurrent (s : State) : Bool :=
  match s.response with
  | none => true
  | some r =>
    r.status == s.status.word &&
      (s.status.err == 0#3 || r.dout.isEmpty || r.dout == wordToBytes s.status.word)

/-- The invariant of the block: FBUF in canonical form and inside its bounds, STATUS legal, and the response current. -/
structure State.Inv (s : State) : Prop where
  canonical : s.fbuf.wf = true
  inside    : s.fbuf.insideFbuf = true
  status    : s.status.legal = true
  response  : s.responseCurrent = true

/-- STATUS as a number, from the bit positions of 10_state.md R24: ERR at bit 0, MATCH at bit 3, CAUSE at bit 8, INDEX
at bit 16, every other bit 0. -/
def statusValue (err : Nat) (mtch : Bool) (cause index : Nat) : Word :=
  BitVec.ofNat 32 (err + (if mtch then 8 else 0) + 256 * cause + 65536 * index)

/-- The state after a command on the port of `s` succeeded with the given CRC_ACC, FBUF, MATCH and DOUT: ERR = 0,
CAUSE = 0x00 and INDEX = 0xFF (60_exceptions.md R201); the response goes to the command's host and the port moves on
(30_encoding.md R60). -/
def afterSuccess (s : State) (crcAcc : Crc) (fbuf : Memory) (mtch : Bool) (dout : List Byte) : State :=
  { crcAcc := crcAcc
    fbuf := fbuf
    status := ⟨0#3, mtch, 0x00#8, 0xFF#8⟩
    input := s.input.tail
    response := some ⟨s.host, statusValue 0 mtch 0x00 0xFF, dout⟩ }

/-- The state after a command on the port of `s` raised an error of class `err` with the given cause and index, MATCH
having the given value: CRC_ACC and FBUF as before, DOUT empty (60_exceptions.md R200). -/
def afterError (s : State) (err cause index : Nat) (mtch : Bool) : State :=
  { crcAcc := s.crcAcc
    fbuf := s.fbuf
    status := ⟨BitVec.ofNat 3 err, mtch, BitVec.ofNat 8 cause, BitVec.ofNat 8 index⟩
    input := s.input.tail
    response := some ⟨s.host, statusValue err mtch cause index, []⟩ }

/-- A word with op-select `op` and a non-zero bit from bit `lo` on raises IllegalCommand(RESERVED_FIELD), whatever DIN
(30_encoding.md R64). -/
def raisesReservedField (op lo : Nat) : Prop :=
  ∀ (s : State) (c : Command) (rest : List PortEvent), s.input = .command c :: rest →
    c.cw.toNat % 256 = op → c.cw.toNat / 2 ^ lo ≠ 0 → step s = .next (afterError s 5 0x02 0xFF s.status.mtch)

/-- `c` is a hex digit character of value `v` (30_encoding.md R72). -/
def HexValue (c : Byte) (v : Nat) : Prop :=
  (v ≤ 9 ∧ c.toNat = 0x30 + v) ∨ (10 ≤ v ∧ v ≤ 15 ∧ (c.toNat = 0x41 + (v - 10) ∨ c.toNat = 0x61 + (v - 10)))

/-- The two lower-case hex digits of a number below 256 (40_color.md R108). -/
def hexText (w : Nat) : List Byte :=
  [w / 16, w % 16].map fun x => BitVec.ofNat 8 (if x < 10 then 0x30 + x else 0x57 + x)

/-- The quantized channel of 40_color.md R100, as a byte. -/
def quantized (c : Nat) : Byte := BitVec.ofNat 8 ((7 * c + 127) / 255)

/-- The rescaled channel of 40_color.md R101 for a value limited to 7 (R102). -/
def rescaled (v : Nat) : Nat := (255 * min v 7 + 3) / 7

/-- The packed group G of a descriptor as a number, from the field positions of 30_encoding.md R68. -/
def groupValue (d : Descriptor) : Nat :=
  2 ^ 21 * d.colorMode.toNat + 2 ^ 18 * d.ledMode.toNat + 2 ^ 15 * d.color2.b.toNat + 2 ^ 12 * d.color2.g.toNat +
    2 ^ 9 * d.color2.r.toNat + 2 ^ 6 * d.color1.b.toNat + 2 ^ 3 * d.color1.g.toNat + d.color1.r.toNat

/-- The record of a descriptor (30_encoding.md R68, 20_memory.md R43): `led_id`, then G least significant byte
first. -/
def recordValue (d : Descriptor) : List Byte :=
  [d.ledId, BitVec.ofNat 8 (groupValue d), BitVec.ofNat 8 (groupValue d / 2 ^ 8), BitVec.ofNat 8 (groupValue d / 2 ^ 16)]

/-- The descriptor of a record, field by field from the positions of 30_encoding.md R68. -/
def descriptorValue (r : Record) : Descriptor :=
  let g := r.byte1.toNat + 2 ^ 8 * r.byte2.toNat + 2 ^ 16 * r.byte3.toNat
  let field := fun lo => BitVec.ofNat 8 (g / 2 ^ lo % 8)
  ⟨r.byte0, field 21, field 18, ⟨field 0, field 3, field 6⟩, ⟨field 9, field 12, field 15⟩⟩

/-- The region of a frame (00_scope.md glossary): nonce, count, records. -/
def regionOf (nonce0 nonce1 : Byte) (ds : List Descriptor) : List Byte :=
  nonce0 :: nonce1 :: BitVec.ofNat 8 ds.length :: ds.flatMap recordValue

/-- The checksum of the frame of a region (42_checksum.md R142), for the reference hardware. -/
def checksumOf (nonce0 nonce1 : Byte) (ds : List Descriptor) : Crc :=
  crc16 Config.hardware ((regionOf nonce0 nonce1 ds).take (3 * (ds.length + 1)))

/-- The unpadded frame (20_memory.md R41): opcode `59 A5 0A`, checksum little-endian, region. -/
def frameBytes (nonce0 nonce1 : Byte) (ds : List Descriptor) : List Byte :=
  [0x59#8, 0xA5#8, 0x0A#8, BitVec.ofNat 8 (checksumOf nonce0 nonce1 ds).toNat,
    BitVec.ofNat 8 ((checksumOf nonce0 nonce1 ds).toNat / 256)] ++ regionOf nonce0 nonce1 ds

/-- Record i of the frame in a buffer (20_memory.md R41): offsets 8+4i to 11+4i. -/
def recordAt (m : Memory) (i : Nat) : Record :=
  ⟨m.read (8 + 4 * i), m.read (9 + 4 * i), m.read (10 + 4 * i), m.read (11 + 4 * i)⟩

/-- The buffer holds the frame opcode `59 A5 0A` at offsets 0 to 2. -/
def holdsOpcode (m : Memory) : Bool := m.read 0 == 0x59#8 && m.read 1 == 0xA5#8 && m.read 2 == 0x0A#8

/-- The checksum engine one bit at a time: the bit of the data byte and the low bit of the accumulator together decide
the XOR with `CRC_POLY` = 0xA001. -/
def bitSerial : Nat → Crc → Byte → Crc
  | 0, acc, _ => acc
  | n + 1, acc, b =>
    bitSerial n (if (acc.getLsbD 0 ^^ b.getLsbD 0) then (acc >>> 1) ^^^ 0xA001#16 else acc >>> 1) (b >>> 1)

/-- The DOUT the last step returned; empty if it returned no response. -/
def State.dout (s : State) : List Byte :=
  match s.response with
  | some r => r.dout
  | none => []

/-- The state with the given commands as the next events at the port, in order. -/
def State.withCommands (s : State) (cs : List Command) : State := { s with input := cs.map .command }

/-- The commands that write CRC_ACC (10_state.md R20). -/
def writesCrc : Instr → Bool
  | .crcInit | .crcByte _ | .crcSpan _ | .frmBuild _ _ _ => true
  | .qntCh _ | .qntRgb _ _ _ | .qntHex | .dqnCh _ | .dqnHex _ _ _ | .recEnc | .recDec | .crcRead | .frmParse
  | .fbLoad | .fbRead | .stRead => false

/-- The commands that write FBUF (10_state.md R20). -/
def writesFbuf : Instr → Bool
  | .frmBuild _ _ _ | .fbLoad => true
  | .qntCh _ | .qntRgb _ _ _ | .qntHex | .dqnCh _ | .dqnHex _ _ _ | .recEnc | .recDec | .crcInit | .crcByte _
  | .crcRead | .crcSpan _ | .frmParse | .fbRead | .stRead => false

/-- The commands that read CRC_ACC (10_state.md R20). -/
def readsCrc : Instr → Bool
  | .crcByte _ | .crcRead => true
  | .qntCh _ | .qntRgb _ _ _ | .qntHex | .dqnCh _ | .dqnHex _ _ _ | .recEnc | .recDec | .crcInit | .crcSpan _
  | .frmBuild _ _ _ | .frmParse | .fbLoad | .fbRead | .stRead => false

/-- The commands that read FBUF (10_state.md R20). -/
def readsFbuf : Instr → Bool
  | .frmParse | .fbRead => true
  | .qntCh _ | .qntRgb _ _ _ | .qntHex | .dqnCh _ | .dqnHex _ _ _ | .recEnc | .recDec | .crcInit | .crcByte _
  | .crcRead | .crcSpan _ | .frmBuild _ _ _ | .fbLoad | .stRead => false

/-- COLOR_MODE or LED_MODE with an index of the given kind. -/
def CmdError.ordinalAt (ok : Byte → Bool) : CmdError → Bool
  | .colorMode k | .ledMode k => ok k
  | .hexLen | .hexChar | .colorRange _ | .dataLen | .parseCount | .count | .frameLen | .opsel | .reservedField => false

/-- COLOR_RANGE with an index of the given kind. -/
def CmdError.rangeAt (ok : Byte → Bool) : CmdError → Bool
  | .colorRange k => ok k
  | .hexLen | .hexChar | .colorMode _ | .ledMode _ | .dataLen | .parseCount | .count | .frameLen | .opsel
  | .reservedField => false

/-- The index of REC.ENC and REC.DEC (60_exceptions.md R203). -/
def noIndex (k : Byte) : Bool := k == 0xFF#8

/-- An index of FRM.BUILD and FRM.PARSE (60_exceptions.md R203): 0 to 15. -/
def recordIndex (k : Byte) : Bool := k.toNat < 16

/-- Which errors a command whose word is legal can raise: the rows of 60_exceptions.md R204, less RESERVED_FIELD. -/
def mayRaise (i : Instr) (e : CmdError) : Bool :=
  match i with
  | .qntHex => e == .hexLen || e == .hexChar
  | .recEnc => e == .dataLen || e.ordinalAt noIndex || e.rangeAt noIndex
  | .recDec => e == .dataLen || e.ordinalAt noIndex
  | .frmBuild _ _ _ =>
    e == .dataLen || e == .count || e == .frameLen || e.ordinalAt recordIndex || e.rangeAt recordIndex
  | .frmParse => e == .dataLen || e == .parseCount || e.ordinalAt recordIndex
  | .qntCh _ | .qntRgb _ _ _ | .dqnCh _ | .dqnHex _ _ _ | .crcInit | .crcByte _ | .crcRead | .crcSpan _ | .fbLoad
  | .fbRead | .stRead => e == .dataLen

end Sys2Proof.Machine
end

