-- ==== Sys2Proof/Certificates/Slice0/Obligations.lean ====
section
/-! DEFINITION. The statements about the model, from the rules of spec/. Each docstring names the rules. -/

open Sys2Proof Sys2Proof.Machine

/-! ### Reset, the step and the decoder -/

/-- R29, whole: CRC_ACC = CRC_SEED = 0xFFFF, every byte of FBUF 0x00, every field of STATUS, and STATUS as a whole. -/
def Obligations.ResetLeavesTheValuesOfTheTable : Prop :=
  State.reset.crcAcc = 0xFFFF#16 ∧ (∀ a, State.reset.fbuf.read a = 0x00#8) ∧
  State.reset.status.err = 0#3 ∧ State.reset.status.mtch = false ∧ State.reset.status.cause = 0x00#8 ∧
  State.reset.status.index = 0xFF#8 ∧ State.reset.status.word = 0x00FF0000#32

/-- The invariant holds at reset. -/
def Obligations.ResetSatisfiesTheInvariant : Prop := State.reset.Inv

/-- Every step keeps the invariant: FBUF canonical and inside its bounds (R22), STATUS legal (R24, R25, R203), and the
response current (R60, with R182 for ST.READ: log 4). -/
def Obligations.EveryStepKeepsTheInvariant : Prop :=
  ∀ s t : State, s.Inv → step s = .next t → t.Inv

/-- R230: a reset request sets CRC_ACC to 0xFFFF, FBUF to zero and STATUS to 0x00FF0000. That the events still to come
stay and the last response is dropped is the model's choice (log 9). -/
def Obligations.ResetRequestRestoresEveryItemOfState : Prop :=
  ∀ (s : State) (rest : List PortEvent), s.input = .reset :: rest →
    ∃ t, step s = .next t ∧ t.crcAcc = 0xFFFF#16 ∧ (∀ a, t.fbuf.read a = 0x00#8) ∧
      t.status.word = 0x00FF0000#32 ∧ t.input = rest ∧ t.response = none

/-- The model's choice (log 2): with no event at the port the block waits, and CRC_ACC, FBUF and STATUS are unchanged. The
response returned by the step before is not kept (R27; log 3). -/
def Obligations.WaitingBlockKeepsItsState : Prop :=
  ∀ s : State, s.input = [] → ∃ t, step s = .next t ∧ t.crcAcc = s.crcAcc ∧ t.fbuf = s.fbuf ∧ t.status = s.status ∧
    t.input = [] ∧ t.response = none

/-- R27, the items on DIN, the command word and DOUT: no step carries over the response of the step before, whatever it
was, or the command it performed. What a state's `response` and the head of `input` hold is the output and the input of
one step (log 1, log 3). -/
def Obligations.NoStepKeepsAResponseOrACommand : Prop :=
  (∀ (s : State) (r : Option Response), step { s with response := r } = step s) ∧
  (∀ s t : State, step s = .next t → t.input = s.input.tail) ∧
  (∀ s t : State, step s = .next t → (∀ c rest, s.input ≠ .command c :: rest) → t.response = none)

/-- A step runs the decoded command: with a command at the port whose word decodes to `i`, the step is `exec i` on that
state, it answers a next state, and the port has moved past that command and no further (R60, R74). -/
def Obligations.StepRunsTheDecodedCommand : Prop :=
  ∀ (s : State) (c : Command) (rest : List PortEvent) (i : Instr),
    s.input = .command c :: rest → decode c.cw = .ok i →
      step s = exec i s ∧ ∃ t, step s = .next t ∧ t.input = rest

/-- R65: every op-select outside R63's column raises IllegalCommand(OPSEL), whatever A, B, C and DIN. The sixteen
defined values are written out. -/
def Obligations.UndefinedOpselRaisesOpsel : Prop :=
  ∀ (s : State) (c : Command) (rest : List PortEvent), s.input = .command c :: rest →
    c.cw.toNat % 256 ∉ [0x10, 0x11, 0x12, 0x13, 0x14, 0x20, 0x21, 0x30, 0x31, 0x32, 0x33, 0x40, 0x41, 0x50, 0x51, 0x52] →
    step s = .next (afterError s 5 0x01 0xFF s.status.mtch)

/-- R64 with R63's columns: a defined op-select with a non-zero field marked "0" raises IllegalCommand(RESERVED_FIELD),
whatever DIN. The first group marks A, B and C, the second B and C. -/
def Obligations.NonzeroReservedFieldRaisesReservedField : Prop :=
  ∀ (s : State) (c : Command) (rest : List PortEvent), s.input = .command c :: rest →
    ((c.cw.toNat % 256 ∈ [0x12, 0x20, 0x21, 0x30, 0x32, 0x41, 0x50, 0x51, 0x52] ∧ c.cw.toNat / 256 ≠ 0) ∨
      (c.cw.toNat % 256 ∈ [0x10, 0x13, 0x31, 0x33] ∧ c.cw.toNat / 65536 ≠ 0)) →
    step s = .next (afterError s 5 0x02 0xFF s.status.mtch)

/-- R236: every command, legal or not, completes, and none waits on anything outside the block. -/
def Obligations.EveryStepAnswersANextState : Prop :=
  ∀ s : State, ∃ t, step s = .next t

/-- Words written out from R61 to R63 decode to the commands they stand for: every family and every field layout, and
the op-selects of QNT.HEX and FRM.PARSE, which no statement on a single command decodes. -/
def Obligations.WordsOfTheSpecDecode : Prop :=
  decode 0x00008010#32 = .ok (.qntCh 0x80#8) ∧
  decode 0x1280FF11#32 = .ok (.qntRgb 0xFF#8 0x80#8 0x12#8) ∧
  decode 0x00040714#32 = .ok (.dqnHex 0x07#8 0x04#8 0x00#8) ∧
  decode 0x00000012#32 = .ok .qntHex ∧
  decode 0x00000020#32 = .ok .recEnc ∧
  decode 0x00003131#32 = .ok (.crcByte 0x31#8) ∧
  decode 0xCDAB0240#32 = .ok (.frmBuild 0x02#8 0xAB#8 0xCD#8) ∧
  decode 0x00000041#32 = .ok .frmParse ∧
  decode 0x00000052#32 = .ok .stRead

/-- Decode and encode agree on every command with every operand, as a word and as the four little-endian bytes of
R62, whatever bytes follow. -/
def Obligations.DecodeOfEncodeIsTheCommand : Prop :=
  ∀ (i : Instr) (rest : List Byte),
    decode (encode i) = .ok i ∧ decodeBytes (encodeBytes i ++ rest) = .ok (i, rest)

/-- The decoder accepts exactly the words of the opcode table's rows (R64, R65, R74), and each accepted word is the
encoding of what it decodes to: no bit of a word is dropped. No word belongs to two rows. -/
def Obligations.DecodeAcceptsExactlyTheTable : Prop :=
  (∀ w : Word, (legalWord w = true ↔ ∃ i, decode w = .ok i) ∧ ∀ i, decode w = .ok i → encode i = w) ∧
  opcodeTable.Pairwise fun row row' => ∀ w : Word, ¬(row.covers w = true ∧ row'.covers w = true)

/-! ### What every command does to STATUS and the block -/

/-- R24: the places of the fields in the STATUS word, and its reserved bits. -/
def Obligations.StatusWordHasTheLayoutOfTheTable : Prop :=
  ∀ st : Status,
    st.word.extractLsb' 0 3 = st.err ∧ st.word.getLsbD 3 = st.mtch ∧ st.word.extractLsb' 4 4 = 0#4 ∧
    st.word.extractLsb' 8 8 = st.cause ∧ st.word.extractLsb' 16 8 = st.index ∧ st.word.extractLsb' 24 8 = 0#8

/-- R60: a command's response goes to the host that issued it and carries STATUS as it stands after the command, and
the port moves on to the next event. -/
def Obligations.ResponseGoesToTheIssuingHost : Prop :=
  ∀ (i : Instr) (s : State) (c : Command) (rest : List PortEvent), s.input = .command c :: rest →
    ∃ t out, exec i s = .next t ∧ t.input = rest ∧ t.response = some ⟨c.host, t.status.word, out⟩

/-- R200: a command that ends in an error leaves CRC_ACC and FBUF as they were, returns an empty DOUT, and keeps MATCH
unless it is FRM.PARSE. ST.READ is left out: its success keeps the STATUS of an earlier error (R182; log 4). -/
def Obligations.FailedCommandWritesOnlyStatus : Prop :=
  ∀ (s t : State) (c : Command) (rest : List PortEvent),
    s.input = .command c :: rest → step s = .next t → decode c.cw ≠ .ok .stRead → t.status.err ≠ 0#3 →
    t.crcAcc = s.crcAcc ∧ t.fbuf = s.fbuf ∧ t.dout = [] ∧
      (decode c.cw ≠ .ok .frmParse → t.status.mtch = s.status.mtch)

/-- R204, which the spec derives from the command rules: a legal command ends in an error that its row of the table lists,
or succeeds and writes ERR = 0, CAUSE = 0x00 and INDEX = 0xFF (R201), or is ST.READ and keeps STATUS (R182). -/
def Obligations.CommandsRaiseOnlyTheirListedErrors : Prop :=
  ∀ (i : Instr) (s : State),
    (∃ e k, mayRaise i e = true ∧
      exec i s = .next (afterError s e.errClass.code.toNat e.cause.toNat e.index.toNat k)) ∨
    (i ≠ .stRead ∧ ∃ c m k out, exec i s = .next (afterSuccess s c m k out)) ∨
    (i = .stRead ∧ ∃ t, exec i s = .next t ∧ t.status = s.status)

/-- R201: only FRM.PARSE writes STATUS.MATCH. -/
def Obligations.OnlyParseWritesMatch : Prop :=
  ∀ (i : Instr) (s t : State), i ≠ .frmParse → exec i s = .next t → t.status.mtch = s.status.mtch

/-- R20, the column of writers: only CRC.INIT, CRC.BYTE, CRC.SPAN and FRM.BUILD change CRC_ACC, and only FRM.BUILD and
FB.LOAD change a byte of FBUF. -/
def Obligations.OnlyTheListedCommandsWriteTheBlock : Prop :=
  ∀ (i : Instr) (s t : State), exec i s = .next t →
    (writesCrc i = false → t.crcAcc = s.crcAcc) ∧ (writesFbuf i = false → ∀ a, t.fbuf.read a = s.fbuf.read a)

/-- R26: no command reads STATUS to decide what it computes. Two states that differ in STATUS (and in the response last
returned) end with the same CRC_ACC, FBUF and events to come; but for ST.READ also with the same ERR, CAUSE, INDEX and
DOUT. -/
def Obligations.NoCommandIsSteeredByStatus : Prop :=
  ∀ (i : Instr) (s : State) (st : Status) (r : Option Response),
    ∃ t u, exec i s = .next t ∧ exec i { s with status := st, response := r } = .next u ∧
      t.crcAcc = u.crcAcc ∧ t.fbuf = u.fbuf ∧ t.input = u.input ∧
      (i ≠ .stRead → t.status.err = u.status.err ∧ t.status.cause = u.status.cause ∧
        t.status.index = u.status.index ∧ t.dout = u.dout)

/-- R20, the column of readers: only CRC.BYTE and CRC.READ read CRC_ACC, and only FRM.PARSE and FB.READ read FBUF.
For every other command the response and STATUS are the same whatever CRC_ACC or FBUF held, and the item not varied
ends the same. -/
def Obligations.OnlyTheListedCommandsReadTheBlock : Prop :=
  ∀ (i : Instr) (s : State),
    (readsCrc i = false → ∀ v : Crc, ∃ t u, exec i s = .next t ∧ exec i { s with crcAcc := v } = .next u ∧
      t.status = u.status ∧ t.response = u.response ∧ t.fbuf = u.fbuf) ∧
    (readsFbuf i = false → ∀ m : Memory, ∃ t u, exec i s = .next t ∧ exec i { s with fbuf := m } = .next u ∧
      t.status = u.status ∧ t.response = u.response ∧ t.crcAcc = u.crcAcc)

/-- R110 and R124: for the colour commands DOUT depends only on A, B, C and DIN, for the record commands only on DIN,
and none changes CRC_ACC or FBUF: two states whose port holds the same data-in answer with the same DOUT and error. -/
def Obligations.ColourAndRecordCommandsArePure : Prop :=
  ∀ (i : Instr) (s s' : State), s.din = s'.din →
    (match i with
      | .qntCh _ | .qntRgb _ _ _ | .qntHex | .dqnCh _ | .dqnHex _ _ _ | .recEnc | .recDec => True
      | _ => False) →
    ∃ t t', exec i s = .next t ∧ exec i s' = .next t' ∧ t.dout = t'.dout ∧ t.status.err = t'.status.err ∧
      t.status.cause = t'.status.cause ∧ t.status.index = t'.status.index ∧
      t.crcAcc = s.crcAcc ∧ t.fbuf = s.fbuf ∧ t'.crcAcc = s'.crcAcc ∧ t'.fbuf = s'.fbuf

/-- R203, DATA_LEN: a command whose DIN does not have the length of R63's column raises FormatError(DATA_LEN); for
FRM.BUILD, once its count passes the capacity check (R205). -/
def Obligations.WrongDinLengthRaisesDataLen : Prop :=
  ∀ (i : Instr) (s : State), i.acceptsDin Config.hardware s.din = false →
    (∀ n x y, i = .frmBuild n x y → n.toNat ≤ 16) →
    exec i s = .next (afterError s 1 0x06 0xFF s.status.mtch)

/-- R234, the rows of its table: commands of any host that do not write CRC_ACC leave a running checksum alone, commands
that do not write FBUF leave the frame alone, however many of them, legal or not, come between; and legal ST.READ
commands with an empty DIN leave the STATUS of the command before them. -/
def Obligations.OnlyInterferingCommandsDisturbASequence : Prop :=
  ∀ (n : Nat) (s t : State), Host.Core.run core n s = .next t →
    ((∀ e ∈ s.input.take n, ∃ c, e = .command c ∧ ∀ i, decode c.cw = .ok i → writesCrc i = false) →
      t.crcAcc = s.crcAcc) ∧
    ((∀ e ∈ s.input.take n, ∃ c, e = .command c ∧ ∀ i, decode c.cw = .ok i → writesFbuf i = false) →
      ∀ a, t.fbuf.read a = s.fbuf.read a) ∧
    ((∀ e ∈ s.input.take n, ∃ c, e = .command c ∧ decode c.cw = .ok .stRead ∧ c.din = []) → t.status = s.status)

/-! ### Colour -/

/-- R104, whole: QNT.CH's encoding, its reserved fields, its result and its error. -/
def Obligations.QntChQuantizesOneChannel : Prop :=
  ∀ (c : Byte) (s : State),
    decode (BitVec.ofNat 32 (0x10 + 0x100 * c.toNat)) = .ok (.qntCh c) ∧ raisesReservedField 0x10 16 ∧
    (s.din = [] →
      exec (.qntCh c) s = .next (afterSuccess s s.crcAcc s.fbuf s.status.mtch [quantized c.toNat])) ∧
    (s.din ≠ [] → exec (.qntCh c) s = .next (afterError s 1 0x06 0xFF s.status.mtch))

/-- R105, whole: QNT.RGB's encoding (every word of its op-select is legal), its result and its error. -/
def Obligations.QntRgbQuantizesThreeChannels : Prop :=
  ∀ (r g b : Byte) (s : State),
    decode (BitVec.ofNat 32 (0x11 + 0x100 * r.toNat + 0x10000 * g.toNat + 0x1000000 * b.toNat)) =
      .ok (.qntRgb r g b) ∧
    (s.din = [] →
      exec (.qntRgb r g b) s =
        .next (afterSuccess s s.crcAcc s.fbuf s.status.mtch
          [quantized r.toNat, quantized g.toNat, quantized b.toNat])) ∧
    (s.din ≠ [] → exec (.qntRgb r g b) s = .next (afterError s 1 0x06 0xFF s.status.mtch))

/-- R106 with R103 and R72: QNT.HEX on a 3-digit string, each digit doubled, and on a 6-digit string, with at most one
leading `#`, in either case of the digits. -/
def Obligations.QntHexQuantizesAColourString : Prop :=
  ∀ (s : State) (hash : List Byte), hash = [] ∨ hash = [0x23#8] →
    (∀ c0 c1 c2 x0 x1 x2, HexValue c0 x0 → HexValue c1 x1 → HexValue c2 x2 → s.din = hash ++ [c0, c1, c2] →
      exec .qntHex s = .next (afterSuccess s s.crcAcc s.fbuf s.status.mtch
        [quantized (17 * x0), quantized (17 * x1), quantized (17 * x2)])) ∧
    (∀ c0 c1 c2 c3 c4 c5 x0 x1 x2 x3 x4 x5, HexValue c0 x0 → HexValue c1 x1 → HexValue c2 x2 → HexValue c3 x3 →
      HexValue c4 x4 → HexValue c5 x5 → s.din = hash ++ [c0, c1, c2, c3, c4, c5] →
      exec .qntHex s = .next (afterSuccess s s.crcAcc s.fbuf s.status.mtch
        [quantized (16 * x0 + x1), quantized (16 * x2 + x3), quantized (16 * x4 + x5)]))

/-- R106 with R103: what is left of the string after one optional `#` must have 3 or 6 bytes, else HEX_LEN; then every
byte must be a hex digit, else HEX_CHAR. -/
def Obligations.QntHexRejectsMalformedStrings : Prop :=
  ∀ (s : State) (rest : List Byte), s.din = 0x23#8 :: rest ∨ (s.din = rest ∧ rest.head? ≠ some 0x23#8) →
    (rest.length ≠ 3 ∧ rest.length ≠ 6 → exec .qntHex s = .next (afterError s 1 0x01 0xFF s.status.mtch)) ∧
    (rest.length = 3 ∨ rest.length = 6 → (∃ c ∈ rest, ∀ v, ¬HexValue c v) →
      exec .qntHex s = .next (afterError s 1 0x02 0xFF s.status.mtch))

/-- R107, whole: DQN.CH's encoding, its reserved fields, its result (a value above 7 is limited to 7) and its error. -/
def Obligations.DqnChRescalesOneChannel : Prop :=
  ∀ (v : Byte) (s : State),
    decode (BitVec.ofNat 32 (0x13 + 0x100 * v.toNat)) = .ok (.dqnCh v) ∧ raisesReservedField 0x13 16 ∧
    (s.din = [] →
      exec (.dqnCh v) s =
        .next (afterSuccess s s.crcAcc s.fbuf s.status.mtch [BitVec.ofNat 8 (rescaled v.toNat)])) ∧
    (s.din ≠ [] → exec (.dqnCh v) s = .next (afterError s 1 0x06 0xFF s.status.mtch))

/-- R108, whole: DQN.HEX's encoding (every word of its op-select is legal), its seven ASCII bytes and its error. -/
def Obligations.DqnHexRendersAColourString : Prop :=
  ∀ (r g b : Byte) (s : State),
    decode (BitVec.ofNat 32 (0x14 + 0x100 * r.toNat + 0x10000 * g.toNat + 0x1000000 * b.toNat)) =
      .ok (.dqnHex r g b) ∧
    (s.din = [] →
      exec (.dqnHex r g b) s =
        .next (afterSuccess s s.crcAcc s.fbuf s.status.mtch
          (0x23#8 :: (hexText (rescaled r.toNat) ++ hexText (rescaled g.toNat) ++ hexText (rescaled b.toNat))))) ∧
    (s.din ≠ [] → exec (.dqnHex r g b) s = .next (afterError s 1 0x06 0xFF s.status.mtch))

/-- R100 and R101, whose integer formulas the spec derives: q3 and dq8 are the integers nearest to 7c/255 and to 255v/7
(no value is a tie), and stay in range. -/
def Obligations.QuantizersRoundToNearest : Prop :=
  (∀ c : Byte, (q3 c).toNat ≤ 7 ∧ 14 * c.toNat < 255 * (2 * (q3 c).toNat + 1) ∧
    255 * (2 * (q3 c).toNat) < 14 * c.toNat + 255) ∧
  (∀ v : Byte, v.toNat ≤ 7 → 510 * v.toNat < 7 * (2 * (dq8 v).toNat + 1) ∧
    7 * (2 * (dq8 v).toNat) < 510 * v.toNat + 7)

/-- R109, which the spec derives from R100 to R108: q3 undoes dq8 on 0 to 7, and for every string QNT.HEX accepts,
quantizing DQN.HEX's rendering of the result gives the result again. -/
def Obligations.RequantizingARenderedColourIsStable : Prop :=
  (∀ v : Byte, v.toNat ≤ 7 → q3 (dq8 v) = v) ∧
  ∀ (s t : State), exec .qntHex s = .next t → t.status.err = 0#3 →
    ∃ r g b, t.dout = [r, g, b] ∧
      ∀ u u' : State, u.din = [] → exec (.dqnHex r g b) u = .next u' →
        ∀ w w' : State, w.din = u'.dout → exec .qntHex w = .next w' → w'.dout = [r, g, b] ∧ w'.status.err = 0#3

/-! ### Records -/

/-- R120, whole: REC.ENC's encoding and reserved fields, the record of a descriptor that passes the checks (the bits of
R68), and its errors in the order of R122, each with INDEX 0xFF. -/
def Obligations.RecEncPacksADescriptor : Prop :=
  decode 0x00000020#32 = .ok .recEnc ∧ raisesReservedField 0x20 8 ∧
  (∀ (s : State) (d : Descriptor), s.din = d.bytes →
    (d.wellFormed = true →
      exec .recEnc s = .next (afterSuccess s s.crcAcc s.fbuf s.status.mtch (recordValue d))) ∧
    (d.colorMode.toNat > 4 → exec .recEnc s = .next (afterError s 1 0x03 0xFF s.status.mtch)) ∧
    (d.colorMode.toNat ≤ 4 → d.ledMode.toNat > 4 →
      exec .recEnc s = .next (afterError s 1 0x04 0xFF s.status.mtch)) ∧
    (d.colorMode.toNat ≤ 4 → d.ledMode.toNat ≤ 4 → d.wellFormed = false →
      exec .recEnc s = .next (afterError s 1 0x05 0xFF s.status.mtch))) ∧
  (∀ s : State, s.din.length ≠ 9 → exec .recEnc s = .next (afterError s 1 0x06 0xFF s.status.mtch))

/-- R121, whole: REC.DEC's encoding and reserved fields, the descriptor of a record whose ordinals are legal (the bits
of R68), and its errors, each with INDEX 0xFF; COLOR_RANGE is not among them. -/
def Obligations.RecDecUnpacksARecord : Prop :=
  decode 0x00000021#32 = .ok .recDec ∧ raisesReservedField 0x21 8 ∧
  (∀ (s : State) (r : Record), s.din = r.bytes →
    (r.byte3.toNat / 32 ≤ 4 → r.byte3.toNat / 4 % 8 ≤ 4 →
      exec .recDec s = .next (afterSuccess s s.crcAcc s.fbuf s.status.mtch (descriptorValue r).bytes)) ∧
    (r.byte3.toNat / 32 > 4 → exec .recDec s = .next (afterError s 1 0x03 0xFF s.status.mtch)) ∧
    (r.byte3.toNat / 32 ≤ 4 → r.byte3.toNat / 4 % 8 > 4 →
      exec .recDec s = .next (afterError s 1 0x04 0xFF s.status.mtch))) ∧
  (∀ s : State, s.din.length ≠ 4 → exec .recDec s = .next (afterError s 1 0x06 0xFF s.status.mtch))

/-- R123 and the laws of R70, which the spec derives: decoding the encoding of a descriptor that passes the checks gives
it back, and encoding the decoding of a record gives the record back. -/
def Obligations.RecordCodecRoundTrips : Prop :=
  (∀ (d : Descriptor) (s t u : State), d.wellFormed = true → s.din = d.bytes → exec .recEnc s = .next t →
    u.din = t.dout → ∃ u', exec .recDec u = .next u' ∧ u'.dout = d.bytes ∧ u'.status.err = 0#3) ∧
  (∀ (r : Record) (s t u : State), s.din = r.bytes → exec .recDec s = .next t → t.status.err = 0#3 →
    u.din = t.dout → ∃ u', exec .recEnc u = .next u' ∧ u'.dout = r.bytes ∧ u'.status.err = 0#3)

/-- R71, whole: the names of the ordinals 0 to 4; a byte passes a mode check of R122 exactly when it is the ordinal of a
mode. -/
def Obligations.ModeOrdinalsAreZeroToFour : Prop :=
  ColorMode.color1.ordinal = 0#8 ∧ ColorMode.color2.ordinal = 1#8 ∧ ColorMode.color1Dim2.ordinal = 2#8 ∧
  ColorMode.color2Dim1.ordinal = 3#8 ∧ ColorMode.color1Pulse2.ordinal = 4#8 ∧
  LedMode.off.ordinal = 0#8 ∧ LedMode.constant.ordinal = 1#8 ∧ LedMode.slowBlink.ordinal = 2#8 ∧
  LedMode.fastBlink.ordinal = 3#8 ∧ LedMode.ultraBlink.ordinal = 4#8 ∧
  ∀ (d : Descriptor) (i : Byte), d.color1.quantized = true → d.color2.quantized = true →
    (checkDescriptor d i = none ↔
      (∃ m : ColorMode, m.ordinal = d.colorMode) ∧ ∃ m : LedMode, m.ordinal = d.ledMode)

/-! ### Checksum -/

/-- R143, whole: CRC.INIT's encoding and reserved fields, the seed 0xFFFF it loads, and its error. -/
def Obligations.CrcInitLoadsTheSeed : Prop :=
  decode 0x00000030#32 = .ok .crcInit ∧ raisesReservedField 0x30 8 ∧
  ∀ s : State,
    (s.din = [] → exec .crcInit s = .next (afterSuccess s 0xFFFF#16 s.fbuf s.status.mtch [])) ∧
    (s.din ≠ [] → exec .crcInit s = .next (afterError s 1 0x06 0xFF s.status.mtch))

/-- R144, whole, with R140: CRC.BYTE's encoding and reserved fields, the accumulator advanced by one byte (the step is
written bit by bit), and its error. -/
def Obligations.CrcByteAdvancesTheAccumulator : Prop :=
  ∀ (b : Byte) (s : State),
    decode (BitVec.ofNat 32 (0x31 + 0x100 * b.toNat)) = .ok (.crcByte b) ∧ raisesReservedField 0x31 16 ∧
    (s.din = [] →
      exec (.crcByte b) s = .next (afterSuccess s (bitSerial 8 s.crcAcc b) s.fbuf s.status.mtch [])) ∧
    (s.din ≠ [] → exec (.crcByte b) s = .next (afterError s 1 0x06 0xFF s.status.mtch))

/-- R145, whole: CRC.READ's encoding and reserved fields, the accumulator it returns, low byte first, and its error. -/
def Obligations.CrcReadReturnsTheAccumulator : Prop :=
  decode 0x00000032#32 = .ok .crcRead ∧ raisesReservedField 0x32 8 ∧
  ∀ s : State,
    (s.din = [] → exec .crcRead s = .next (afterSuccess s s.crcAcc s.fbuf s.status.mtch
      [BitVec.ofNat 8 s.crcAcc.toNat, BitVec.ofNat 8 (s.crcAcc.toNat / 256)])) ∧
    (s.din ≠ [] → exec .crcRead s = .next (afterError s 1 0x06 0xFF s.status.mtch))

/-- R146, whole: CRC.SPAN's encoding and reserved fields; it loads and returns the checksum of the first 3(c+1) bytes of
DIN, for any c; a shorter DIN is DATA_LEN. -/
def Obligations.CrcSpanChecksumsTheSpan : Prop :=
  ∀ (c : Byte) (s : State),
    decode (BitVec.ofNat 32 (0x33 + 0x100 * c.toNat)) = .ok (.crcSpan c) ∧ raisesReservedField 0x33 16 ∧
    (∀ span rest : List Byte, s.din = span ++ rest → span.length = 3 * (c.toNat + 1) →
      exec (.crcSpan c) s = .next (afterSuccess s (crc16 Config.hardware span) s.fbuf s.status.mtch
        [BitVec.ofNat 8 (crc16 Config.hardware span).toNat,
          BitVec.ofNat 8 ((crc16 Config.hardware span).toNat / 256)])) ∧
    (s.din.length < 3 * (c.toNat + 1) → exec (.crcSpan c) s = .next (afterError s 1 0x06 0xFF s.status.mtch))

/-- R147, which the spec derives, and V-CRC-1, 2, 3, 6, 10, 11: the check value 0x4B37 over `123456789`, and further values
of the table. -/
def Obligations.ChecksumHasTheCatalogueCheckValue : Prop :=
  crc16 Config.hardware [0x31#8, 0x32#8, 0x33#8, 0x34#8, 0x35#8, 0x36#8, 0x37#8, 0x38#8, 0x39#8] = 0x4B37#16 ∧
  crc16 Config.hardware [] = 0xFFFF#16 ∧
  crc16 Config.hardware [0x00#8] = 0x40BF#16 ∧
  crc16 Config.hardware [0x01#8] = 0x807E#16 ∧
  crc16 Config.hardware [0x00#8, 0x00#8, 0x00#8] = 0xC071#16 ∧
  crc16 Config.hardware [0xFF#8, 0xFF#8, 0x00#8] = 0x0000#16 ∧
  crc16 Config.hardware [0x00#8, 0x00#8, 0x01#8, 0x01#8, 0x07#8, 0x70#8] = 0xF353#16

/-- R148, which the spec derives: changing any single byte of a sequence changes its checksum, and a byte of a region
outside the span of R142 does not change the frame checksum. -/
def Obligations.ChecksumDetectsAnyChangedByte : Prop :=
  (∀ (before after : List Byte) (b b' : Byte), b ≠ b' →
    crc16 Config.hardware (before ++ b :: after) ≠ crc16 Config.hardware (before ++ b' :: after)) ∧
  (∀ (n : Nat) (before after : List Byte) (b b' : Byte), 3 * (n + 1) ≤ before.length →
    frameChecksum Config.hardware n (before ++ b :: after) = frameChecksum Config.hardware n (before ++ b' :: after))

/-- R140, R141: the checksum of a sequence is that of the engine fed one bit at a time, least significant bit first,
from the seed 0xFFFF. -/
def Obligations.ChecksumEqualsTheBitSerialEngine : Prop :=
  ∀ bytes : List Byte, crc16 Config.hardware bytes = bytes.foldl (bitSerial 8) 0xFFFF#16

/-- R76 and R141: CRC.RUN, from any state, ends with the checksum of its bytes in CRC_ACC and in DOUT, low byte first,
and leaves FBUF alone. -/
def Obligations.CrcRunComputesTheChecksum : Prop :=
  ∀ (s : State) (host : Nat) (bytes : List Byte),
    ∃ t, Host.Core.run core (bytes.length + 2) (s.withCommands (crcRun host bytes)) = .next t ∧
      t.crcAcc = crc16 Config.hardware bytes ∧
      t.dout = [BitVec.ofNat 8 (crc16 Config.hardware bytes).toNat,
        BitVec.ofNat 8 ((crc16 Config.hardware bytes).toNat / 256)] ∧
      t.fbuf = s.fbuf ∧ t.input = []

/-! ### Framer -/

/-- R160, success: FRM.BUILD of n = 0 to 16 descriptors that pass the checks writes the padded frame to every byte of
FBUF and its checksum to CRC_ACC; nothing outside FBUF's 129 bytes changes. FBUF is in canonical form before
(`EveryStepKeepsTheInvariant`). -/
def Obligations.FrmBuildWritesThePaddedFrame : Prop :=
  ∀ (s : State) (nonce0 nonce1 : Byte) (ds : List Descriptor), s.fbuf.wf = true → ds.length ≤ 16 →
    (∀ d ∈ ds, d.wellFormed = true) → s.din = ds.flatMap Descriptor.bytes →
    ∃ buf, exec (.frmBuild (BitVec.ofNat 8 ds.length) nonce0 nonce1) s =
        .next (afterSuccess s (checksumOf nonce0 nonce1 ds) buf s.status.mtch []) ∧
      ∀ a, buf.read a = if a < 129 then (frameBytes nonce0 nonce1 ds).getD a 0x00#8 else s.fbuf.read a

/-- R160's errors in the order of R205: COUNT before the length of DIN (R164), DATA_LEN, and the first descriptor that
fails a check, with its index. -/
def Obligations.FrmBuildReportsTheFirstError : Prop :=
  ∀ (s : State) (n nonce0 nonce1 : Byte),
    (n.toNat > 16 → exec (.frmBuild n nonce0 nonce1) s = .next (afterError s 2 0x01 0xFF s.status.mtch)) ∧
    (n.toNat ≤ 16 → s.din.length ≠ 9 * n.toNat →
      exec (.frmBuild n nonce0 nonce1) s = .next (afterError s 1 0x06 0xFF s.status.mtch)) ∧
    (∀ (good : List Descriptor) (d : Descriptor) (more : List Descriptor), n.toNat ≤ 16 →
      good.length + 1 + more.length = n.toNat → s.din = (good ++ d :: more).flatMap Descriptor.bytes →
      (∀ g ∈ good, g.wellFormed = true) →
      (d.colorMode.toNat > 4 →
        exec (.frmBuild n nonce0 nonce1) s = .next (afterError s 1 0x03 good.length s.status.mtch)) ∧
      (d.colorMode.toNat ≤ 4 → d.ledMode.toNat > 4 →
        exec (.frmBuild n nonce0 nonce1) s = .next (afterError s 1 0x04 good.length s.status.mtch)) ∧
      (d.colorMode.toNat ≤ 4 → d.ledMode.toNat ≤ 4 → d.wellFormed = false →
        exec (.frmBuild n nonce0 nonce1) s = .next (afterError s 1 0x05 good.length s.status.mtch)))

/-- R160, FRAME_LEN: in a block of any configuration, a frame that does not fit in the report raises
CapacityError(FRAME_LEN); with the reference hardware's 129 bytes every frame of at most 16 records fits. -/
def Obligations.FrameThatDoesNotFitRaisesFrameLen : Prop :=
  (∀ (cfg : Config) (s : State) (n nonce0 nonce1 : Byte), n.toNat ≤ 16 → 8 + 4 * n.toNat > cfg.reportLen →
    frmBuild cfg n nonce0 nonce1 s = .next (afterError s 2 0x02 0xFF s.status.mtch)) ∧
  (∀ n : Byte, n.toNat ≤ 16 → 8 + 4 * n.toNat ≤ Config.hardware.reportLen)

/-- R162, success: with the opcode in FBUF, a count k of 0 to 16 and records whose ordinals are legal, FRM.PARSE returns
the count and the k descriptors, and sets MATCH. -/
def Obligations.FrmParseReturnsTheRecords : Prop :=
  ∀ s : State, s.din = [] → holdsOpcode s.fbuf = true → (s.fbuf.read 7).toNat ≤ 16 →
    (∀ i < (s.fbuf.read 7).toNat, (descriptorValue (recordAt s.fbuf i)).wellFormed = true) →
    exec .frmParse s = .next (afterSuccess s s.crcAcc s.fbuf true
      (s.fbuf.read 7 ::
        (List.range (s.fbuf.read 7).toNat).flatMap fun i => (descriptorValue (recordAt s.fbuf i)).bytes))

/-- R206: an opcode mismatch on parse is not an error: FRM.PARSE succeeds with an empty record list and MATCH = 0. -/
def Obligations.OpcodeMismatchIsNotAnError : Prop :=
  ∀ s : State, s.din = [] → holdsOpcode s.fbuf = false →
    exec .frmParse s = .next (afterSuccess s s.crcAcc s.fbuf false [0x00#8])

/-- R162's errors in their order: DATA_LEN with MATCH kept; then, with MATCH set, a count above 16, and the first record
with an illegal ordinal, with its index. In a block of any legal configuration, a count of at most 16 whose records run
past the report raises PARSE_COUNT too. -/
def Obligations.FrmParseReportsTheFirstError : Prop :=
  (∀ s : State,
    (s.din ≠ [] → exec .frmParse s = .next (afterError s 1 0x06 0xFF s.status.mtch)) ∧
    (s.din = [] → holdsOpcode s.fbuf = true →
      ((s.fbuf.read 7).toNat > 16 → exec .frmParse s = .next (afterError s 1 0x07 0xFF true)) ∧
      (∀ i < (s.fbuf.read 7).toNat, (s.fbuf.read 7).toNat ≤ 16 →
        (∀ j < i, (descriptorValue (recordAt s.fbuf j)).wellFormed = true) →
        ((recordAt s.fbuf i).byte3.toNat / 32 > 4 → exec .frmParse s = .next (afterError s 1 0x03 i true)) ∧
        ((recordAt s.fbuf i).byte3.toNat / 32 ≤ 4 → (recordAt s.fbuf i).byte3.toNat / 4 % 8 > 4 →
          exec .frmParse s = .next (afterError s 1 0x04 i true))))) ∧
  (∀ (cfg : Config) (s : State), cfg.wellFormed = true → s.din = [] →
    [s.fbuf.read 0, s.fbuf.read 1, s.fbuf.read 2] = cfg.frameOpcode → (s.fbuf.read 7).toNat ≤ 16 →
    8 + 4 * (s.fbuf.read 7).toNat > cfg.reportLen → frmParse cfg s = .next (afterError s 1 0x07 0xFF true))

/-- R163, which the spec derives: a FRM.BUILD that succeeds, then FRM.PARSE, returns the count and the descriptors with
MATCH = 1; and so does the send sequence on one block followed by the receive sequence of the report on any block. -/
def Obligations.FramedRecordsParseBack : Prop :=
  ∀ (s : State) (host : Nat) (nonce0 nonce1 : Byte) (ds : List Descriptor), s.fbuf.wf = true → ds.length ≤ 16 →
    (∀ d ∈ ds, d.wellFormed = true) →
    (∃ t, Host.Core.run core 2 (s.withCommands
        [issue host (.frmBuild (BitVec.ofNat 8 ds.length) nonce0 nonce1) (ds.flatMap Descriptor.bytes),
          issue host .frmParse []]) = .next t ∧
      t.dout = BitVec.ofNat 8 ds.length :: ds.flatMap Descriptor.bytes ∧ t.status.err = 0#3 ∧
      t.status.mtch = true) ∧
    (∃ t, Host.Core.run core 2 (s.withCommands (sendSequence host (BitVec.ofNat 8 ds.length) nonce0 nonce1 ds)) =
        .next t ∧ t.status.err = 0#3 ∧ t.dout.length = 129 ∧
      ∀ u : State, u.fbuf.wf = true →
        ∃ u', Host.Core.run core 2 (u.withCommands (receiveSequence host t.dout)) = .next u' ∧
          u'.dout = BitVec.ofNat 8 ds.length :: ds.flatMap Descriptor.bytes ∧ u'.status.err = 0#3 ∧
          u'.status.mtch = true)

/-- R142 and R235, with what the spec derives there and in R148: the frame checksum covers the nonce, the count and the
first 3n record bytes, and no more. Two frames of n records whose spans differ in one byte leave different checksums in
CRC_ACC; two whose record bytes agree up to there, under one nonce, leave the same; with n = 1 the span leaves out
color_mode and led_mode. -/
def Obligations.FrameChecksumCoversTheTruncatedSpan : Prop :=
  (∀ (s s' t t' : State) (nonce0 nonce1 nonce0' nonce1' : Byte) (ds ds' : List Descriptor) (before after : List Byte)
    (b b' : Byte), ds.length ≤ 16 → ds'.length = ds.length → (∀ d ∈ ds, d.wellFormed = true) →
    (∀ d ∈ ds', d.wellFormed = true) →
    (regionOf nonce0 nonce1 ds).take (3 * (ds.length + 1)) = before ++ b :: after →
    (regionOf nonce0' nonce1' ds').take (3 * (ds.length + 1)) = before ++ b' :: after → b ≠ b' →
    s.din = ds.flatMap Descriptor.bytes → s'.din = ds'.flatMap Descriptor.bytes →
    exec (.frmBuild (BitVec.ofNat 8 ds.length) nonce0 nonce1) s = .next t →
    exec (.frmBuild (BitVec.ofNat 8 ds.length) nonce0' nonce1') s' = .next t' → t.crcAcc ≠ t'.crcAcc) ∧
  (∀ (s s' t t' : State) (nonce0 nonce1 : Byte) (ds ds' : List Descriptor), ds.length ≤ 16 →
    ds'.length = ds.length → (∀ d ∈ ds, d.wellFormed = true) → (∀ d ∈ ds', d.wellFormed = true) →
    (ds.flatMap recordValue).take (3 * ds.length) = (ds'.flatMap recordValue).take (3 * ds.length) →
    s.din = ds.flatMap Descriptor.bytes → s'.din = ds'.flatMap Descriptor.bytes →
    exec (.frmBuild (BitVec.ofNat 8 ds.length) nonce0 nonce1) s = .next t →
    exec (.frmBuild (BitVec.ofNat 8 ds.length) nonce0 nonce1) s' = .next t' → t.crcAcc = t'.crcAcc) ∧
  (∀ (d d' : Descriptor), d.wellFormed = true → d'.wellFormed = true → d.ledId = d'.ledId →
    d.color1 = d'.color1 → d.color2 = d'.color2 →
    ([d].flatMap recordValue).take (3 * [d].length) = ([d'].flatMap recordValue).take (3 * [d].length))

/-- R162 (not checked: the checksum, the nonce and the padding): FRM.PARSE answers the same on two buffers that agree at
offsets 0 to 2 and 7 and at the record bytes 8 to 7+4k. -/
def Obligations.ParseIgnoresChecksumNonceAndPadding : Prop :=
  ∀ (s : State) (m : Memory), (∀ a < 3, m.read a = s.fbuf.read a) → m.read 7 = s.fbuf.read 7 →
    (∀ a, 8 ≤ a → a < 8 + 4 * (s.fbuf.read 7).toNat → m.read a = s.fbuf.read a) →
    ∃ t u, exec .frmParse s = .next t ∧ exec .frmParse { s with fbuf := m } = .next u ∧
      t.status = u.status ∧ t.response = u.response

/-- R30, which the spec derives, in a block of any legal configuration: a FRM.PARSE command with an empty DIN, issued by any
host to the block in its reset state, succeeds with a count of 0, and MATCH is 1 exactly when FRAME_OPCODE is `00 00 00`. -/
def Obligations.ResetBufferMatchesOnlyTheZeroOpcode : Prop :=
  ∀ (cfg : Config) (host : Nat), cfg.wellFormed = true →
    ∃ t, frmParse cfg ((State.resetWith cfg).withCommands [issue host .frmParse []]) = .next t ∧
      t.status.err = 0#3 ∧ t.dout = [0x00#8] ∧ (t.status.mtch = true ↔ cfg.frameOpcode = [0x00#8, 0x00#8, 0x00#8])

/-! ### Buffer and status -/

/-- R180, whole: FB.LOAD's encoding and reserved fields; it stores exactly 129 bytes, unchecked, and changes nothing else;
any other length is DATA_LEN. FBUF is in canonical form before (`EveryStepKeepsTheInvariant`). -/
def Obligations.FbLoadStoresTheReport : Prop :=
  decode 0x00000050#32 = .ok .fbLoad ∧ raisesReservedField 0x50 8 ∧
  ∀ s : State,
    (s.fbuf.wf = true → s.din.length = 129 →
      ∃ buf, exec .fbLoad s = .next (afterSuccess s s.crcAcc buf s.status.mtch []) ∧
        ∀ a, buf.read a = if a < 129 then s.din.getD a 0x00#8 else s.fbuf.read a) ∧
    (s.din.length ≠ 129 → exec .fbLoad s = .next (afterError s 1 0x06 0xFF s.status.mtch))

/-- R181, whole: FB.READ's encoding and reserved fields; it returns the 129 bytes of FBUF and changes nothing but STATUS. -/
def Obligations.FbReadReturnsTheBuffer : Prop :=
  decode 0x00000051#32 = .ok .fbRead ∧ raisesReservedField 0x51 8 ∧
  ∀ s : State,
    (s.din = [] → exec .fbRead s =
      .next (afterSuccess s s.crcAcc s.fbuf s.status.mtch ((List.range 129).map fun a => s.fbuf.read a))) ∧
    (s.din ≠ [] → exec .fbRead s = .next (afterError s 1 0x06 0xFF s.status.mtch))

/-- R182: ST.READ's encoding and reserved fields; it returns STATUS as it was before, least significant byte first, and
does not rewrite it; with a non-empty DIN it raises DATA_LEN like any command. That the four bytes are returned also when
the STATUS kept has an ERR other than 0 follows R182 against R60's last sentence: log 4, DEDUCED. -/
def Obligations.StReadReturnsStatusAndKeepsIt : Prop :=
  decode 0x00000052#32 = .ok .stRead ∧ raisesReservedField 0x52 8 ∧
  ∀ s : State,
    (s.din = [] → exec .stRead s = .next { s with
      input := s.input.tail
      response := some ⟨s.host, s.status.word,
        [0, 8, 16, 24].map fun k => BitVec.ofNat 8 (s.status.word.toNat / 2 ^ k)⟩ }) ∧
    (s.din ≠ [] → exec .stRead s = .next (afterError s 1 0x06 0xFF s.status.mtch))

/-- R46, the sentence on writes, which the spec derives: a second identical FB.LOAD, or a second identical FRM.BUILD, leaves
the block's state as the first one left it. -/
def Obligations.RepeatedBufferWritesAreIdempotent : Prop :=
  ∀ (i : Instr) (host : Nat) (din : List Byte) (s t u : State), s.fbuf.wf = true → writesFbuf i = true →
    Host.Core.run core 1 (s.withCommands [issue host i din, issue host i din]) = .next t →
    Host.Core.run core 2 (s.withCommands [issue host i din, issue host i din]) = .next u →
    u.crcAcc = t.crcAcc ∧ u.fbuf = t.fbuf ∧ u.status = t.status

/-! ### Assembler -/

/-- R75's two examples, and a line with operands and a data-in in braces (43_frame.md R160's example). -/
def Obligations.AssemblerEncodesTheSpecsLines : Prop :=
  assemble 0 "CRC.BYTE 0x31".toList = some ⟨0, 0x00003131#32, []⟩ ∧
  assemble 0 "QNT.HEX : \"#fff\"".toList = some ⟨0, 0x00000012#32, [0x23#8, 0x66#8, 0x66#8, 0x66#8]⟩ ∧
  assemble 0 ("FRM.BUILD 1, 0x00, 0x00 : ".toList ++ [leftBrace] ++ "01 00 01 07 00 00 00 07 00".toList ++
      [rightBrace]) =
    some ⟨0, 0x00000140#32, [0x01#8, 0x00#8, 0x01#8, 0x07#8, 0x00#8, 0x00#8, 0x00#8, 0x07#8, 0x00#8]⟩
end

