-- ==== Sys2Proof/Laws/Decode.lean ====
section
/-! SUPPORT. Command words and their fields: the fields as numbers, the fields of a built word, and the rows of the opcode
table on a built word. -/

namespace Sys2Proof

theorem opField_toNat (w : Word) : (opField w).toNat = w.toNat % 256 := by
  simp [opField, BitVec.extractLsb'_toNat]

theorem aField_toNat (w : Word) : (aField w).toNat = w.toNat / 256 % 256 := by
  simp [aField, BitVec.extractLsb'_toNat, Nat.shiftRight_eq_div_pow]

theorem bField_toNat (w : Word) : (bField w).toNat = w.toNat / 65536 % 256 := by
  simp [bField, BitVec.extractLsb'_toNat, Nat.shiftRight_eq_div_pow]

theorem cField_toNat (w : Word) : (cField w).toNat = w.toNat / 16777216 % 256 := by
  simp [cField, BitVec.extractLsb'_toNat, Nat.shiftRight_eq_div_pow]

theorem commandWord_toNat (op a b c : Byte) :
    (commandWord op a b c).toNat = op.toNat + 256 * a.toNat + 65536 * b.toNat + 16777216 * c.toNat := by
  have h1 := op.isLt
  have h2 := a.isLt
  have h3 := b.isLt
  simp only [commandWord, BitVec.toNat_append]
  rw [← Nat.shiftLeft_add_eq_or_of_lt h1, ← Nat.shiftLeft_add_eq_or_of_lt h2, ← Nat.shiftLeft_add_eq_or_of_lt h3]
  simp only [Nat.shiftLeft_eq]
  omega

@[simp] theorem opField_commandWord (op a b c : Byte) : opField (commandWord op a b c) = op := by
  apply BitVec.eq_of_toNat_eq
  rw [opField_toNat, commandWord_toNat]
  omega

@[simp] theorem aField_commandWord (op a b c : Byte) : aField (commandWord op a b c) = a := by
  apply BitVec.eq_of_toNat_eq
  rw [aField_toNat, commandWord_toNat]
  omega

@[simp] theorem bField_commandWord (op a b c : Byte) : bField (commandWord op a b c) = b := by
  apply BitVec.eq_of_toNat_eq
  rw [bField_toNat, commandWord_toNat]
  omega

@[simp] theorem cField_commandWord (op a b c : Byte) : cField (commandWord op a b c) = c := by
  apply BitVec.eq_of_toNat_eq
  rw [cField_toNat, commandWord_toNat]
  omega

/-- A word is the word of its fields. -/
theorem commandWord_fields (w : Word) : commandWord (opField w) (aField w) (bField w) (cField w) = w := by
  apply BitVec.eq_of_toNat_eq
  rw [commandWord_toNat, opField_toNat, aField_toNat, bField_toNat, cField_toNat]
  have := w.isLt
  omega

/-- Words of equal fields only are equal. -/
theorem commandWord_inj {op a b c op' a' b' c' : Byte} (h : commandWord op a b c = commandWord op' a' b' c') :
    op = op' ∧ a = a' ∧ b = b' ∧ c = c' :=
  ⟨by simpa using congrArg opField h, by simpa using congrArg aField h, by simpa using congrArg bField h,
    by simpa using congrArg cField h⟩

theorem opField_and (v w : Word) : opField (v &&& w) = opField v &&& opField w := BitVec.extractLsb'_and
theorem aField_and (v w : Word) : aField (v &&& w) = aField v &&& aField w := BitVec.extractLsb'_and
theorem bField_and (v w : Word) : bField (v &&& w) = bField v &&& bField w := BitVec.extractLsb'_and
theorem cField_and (v w : Word) : cField (v &&& w) = cField v &&& cField w := BitVec.extractLsb'_and

theorem commandWord_and (op a b c op' a' b' c' : Byte) :
    commandWord op a b c &&& commandWord op' a' b' c' =
      commandWord (op &&& op') (a &&& a') (b &&& b') (c &&& c') := by
  rw [← commandWord_fields (commandWord op a b c &&& commandWord op' a' b' c')]
  simp only [opField_and, aField_and, bField_and, cField_and, opField_commandWord, aField_commandWord,
    bField_commandWord, cField_commandWord]

theorem and_FF (x : Byte) : x &&& 0xFF#8 = x := BitVec.and_allOnes

/-- A row that fixes `OP` only. -/
theorem covers_abc (p op a b c : Byte) :
    OpRow.covers ⟨commandWord p 0#8 0#8 0#8, 0x000000FF#32⟩ (commandWord op a b c) = true ↔ op = p := by
  have hm : (0x000000FF#32 : Word) = commandWord 0xFF#8 0#8 0#8 0#8 := by decide
  simp only [OpRow.covers, hm, commandWord_and, and_FF, BitVec.and_zero, beq_iff_eq]
  exact ⟨fun h => (commandWord_inj h).1, fun h => by rw [h]⟩

/-- A row that fixes `OP`, `B` and `C`. -/
theorem covers_a (p op a b c : Byte) :
    OpRow.covers ⟨commandWord p 0#8 0#8 0#8, 0xFFFF00FF#32⟩ (commandWord op a b c) = true ↔
      op = p ∧ b = 0#8 ∧ c = 0#8 := by
  have hm : (0xFFFF00FF#32 : Word) = commandWord 0xFF#8 0#8 0xFF#8 0xFF#8 := by decide
  simp only [OpRow.covers, hm, commandWord_and, and_FF, BitVec.and_zero, beq_iff_eq]
  constructor
  · intro h
    obtain ⟨h1, _, h3, h4⟩ := commandWord_inj h
    exact ⟨h1, h3, h4⟩
  · rintro ⟨rfl, rfl, rfl⟩
    rfl

/-- A row that fixes every field. -/
theorem covers_none (p op a b c : Byte) :
    OpRow.covers ⟨commandWord p 0#8 0#8 0#8, 0xFFFFFFFF#32⟩ (commandWord op a b c) = true ↔
      op = p ∧ a = 0#8 ∧ b = 0#8 ∧ c = 0#8 := by
  have hm : (0xFFFFFFFF#32 : Word) = commandWord 0xFF#8 0xFF#8 0xFF#8 0xFF#8 := by decide
  simp only [OpRow.covers, hm, commandWord_and, and_FF, beq_iff_eq]
  constructor
  · exact fun h => commandWord_inj h
  · rintro ⟨rfl, rfl, rfl, rfl⟩
    rfl

/-- The table with each row's pattern as the word of its fields. -/
theorem opcodeTable_eq : opcodeTable =
    [⟨commandWord 0x10#8 0#8 0#8 0#8, 0xFFFF00FF#32⟩, ⟨commandWord 0x11#8 0#8 0#8 0#8, 0x000000FF#32⟩,
     ⟨commandWord 0x12#8 0#8 0#8 0#8, 0xFFFFFFFF#32⟩, ⟨commandWord 0x13#8 0#8 0#8 0#8, 0xFFFF00FF#32⟩,
     ⟨commandWord 0x14#8 0#8 0#8 0#8, 0x000000FF#32⟩, ⟨commandWord 0x20#8 0#8 0#8 0#8, 0xFFFFFFFF#32⟩,
     ⟨commandWord 0x21#8 0#8 0#8 0#8, 0xFFFFFFFF#32⟩, ⟨commandWord 0x30#8 0#8 0#8 0#8, 0xFFFFFFFF#32⟩,
     ⟨commandWord 0x31#8 0#8 0#8 0#8, 0xFFFF00FF#32⟩, ⟨commandWord 0x32#8 0#8 0#8 0#8, 0xFFFFFFFF#32⟩,
     ⟨commandWord 0x33#8 0#8 0#8 0#8, 0xFFFF00FF#32⟩, ⟨commandWord 0x40#8 0#8 0#8 0#8, 0x000000FF#32⟩,
     ⟨commandWord 0x41#8 0#8 0#8 0#8, 0xFFFFFFFF#32⟩, ⟨commandWord 0x50#8 0#8 0#8 0#8, 0xFFFFFFFF#32⟩,
     ⟨commandWord 0x51#8 0#8 0#8 0#8, 0xFFFFFFFF#32⟩, ⟨commandWord 0x52#8 0#8 0#8 0#8, 0xFFFFFFFF#32⟩] := by
  decide

/-- Which words of given fields are legal. -/
theorem legalWord_commandWord (op a b c : Byte) :
    legalWord (commandWord op a b c) = true ↔
      (op = 0x11#8 ∨ op = 0x14#8 ∨ op = 0x40#8) ∨
      ((op = 0x10#8 ∨ op = 0x13#8 ∨ op = 0x31#8 ∨ op = 0x33#8) ∧ b = 0#8 ∧ c = 0#8) ∨
      ((op = 0x12#8 ∨ op = 0x20#8 ∨ op = 0x21#8 ∨ op = 0x30#8 ∨ op = 0x32#8 ∨ op = 0x41#8 ∨ op = 0x50#8 ∨
        op = 0x51#8 ∨ op = 0x52#8) ∧ a = 0#8 ∧ b = 0#8 ∧ c = 0#8) := by
  simp only [legalWord, opcodeTable_eq, List.any_cons, List.any_nil, Bool.or_eq_true, covers_abc, covers_a, covers_none,
    Bool.false_eq_true, or_false]
  constructor
  · rintro (h | h | h | h | h | h | h | h | h | h | h | h | h | h | h | h) <;> simp [h]
  · rintro ((h | h | h) | ⟨h | h | h | h, hb, hc⟩ | ⟨h | h | h | h | h | h | h | h | h, ha, hb, hc⟩) <;> simp [*]

end Sys2Proof
end

