-- ==== Sys2Proof/Laws/State.lean ====
section
/-! SUPPORT. The fields of a state after each named update, one lemma a field, and the field lemmas of the states that
the claims name. -/

namespace Sys2Proof.Machine

@[simp] theorem respond_crcAcc (s : State) (out : List Byte) : (s.respond out).crcAcc = s.crcAcc := rfl
@[simp] theorem respond_fbuf (s : State) (out : List Byte) : (s.respond out).fbuf = s.fbuf := rfl
@[simp] theorem respond_status (s : State) (out : List Byte) : (s.respond out).status = s.status := rfl
@[simp] theorem respond_input (s : State) (out : List Byte) : (s.respond out).input = s.input.tail := rfl
@[simp] theorem respond_response (s : State) (out : List Byte) :
    (s.respond out).response = some ⟨s.host, s.status.word, out⟩ := rfl

/-- DIN stands at the port: no write to the block's own state changes it. -/
@[simp] theorem din_mk (c : Crc) (m : Memory) (st : Status) (r : Option Response) (s : State) :
    State.din ⟨c, m, st, s.input, r⟩ = s.din := rfl
@[simp] theorem host_mk (c : Crc) (m : Memory) (st : Status) (r : Option Response) (s : State) :
    State.host ⟨c, m, st, s.input, r⟩ = s.host := rfl

theorem din_of_command {s : State} {c : Command} {rest : List PortEvent} (h : s.input = .command c :: rest) :
    s.din = c.din := by
  simp [State.din, h]

theorem host_of_command {s : State} {c : Command} {rest : List PortEvent} (h : s.input = .command c :: rest) :
    s.host = c.host := by
  simp [State.host, h]

@[simp] theorem succeeded_err (st : Status) : st.succeeded.err = 0#3 := rfl
@[simp] theorem succeeded_mtch (st : Status) : st.succeeded.mtch = st.mtch := rfl
@[simp] theorem succeeded_cause (st : Status) : st.succeeded.cause = 0x00#8 := rfl
@[simp] theorem succeeded_index (st : Status) : st.succeeded.index = 0xFF#8 := rfl
@[simp] theorem failed_err (st : Status) (e : CmdError) : (st.failed e).err = e.errClass.code := rfl
@[simp] theorem failed_mtch (st : Status) (e : CmdError) : (st.failed e).mtch = st.mtch := rfl
@[simp] theorem failed_cause (st : Status) (e : CmdError) : (st.failed e).cause = e.cause := rfl
@[simp] theorem failed_index (st : Status) (e : CmdError) : (st.failed e).index = e.index := rfl

@[simp] theorem afterSuccess_crcAcc (s : State) (c : Crc) (m : Memory) (k : Bool) (out : List Byte) :
    (afterSuccess s c m k out).crcAcc = c := rfl
@[simp] theorem afterSuccess_fbuf (s : State) (c : Crc) (m : Memory) (k : Bool) (out : List Byte) :
    (afterSuccess s c m k out).fbuf = m := rfl
@[simp] theorem afterSuccess_input (s : State) (c : Crc) (m : Memory) (k : Bool) (out : List Byte) :
    (afterSuccess s c m k out).input = s.input.tail := rfl
@[simp] theorem afterSuccess_dout (s : State) (c : Crc) (m : Memory) (k : Bool) (out : List Byte) :
    (afterSuccess s c m k out).dout = out := rfl
@[simp] theorem afterError_crcAcc (s : State) (e c i : Nat) (k : Bool) :
    (afterError s e c i k).crcAcc = s.crcAcc := rfl
@[simp] theorem afterError_fbuf (s : State) (e c i : Nat) (k : Bool) : (afterError s e c i k).fbuf = s.fbuf := rfl
@[simp] theorem afterError_input (s : State) (e c i : Nat) (k : Bool) :
    (afterError s e c i k).input = s.input.tail := rfl
@[simp] theorem afterError_dout (s : State) (e c i : Nat) (k : Bool) : (afterError s e c i k).dout = [] := rfl

@[simp] theorem withCommands_crcAcc (s : State) (cs : List Command) : (s.withCommands cs).crcAcc = s.crcAcc := rfl
@[simp] theorem withCommands_fbuf (s : State) (cs : List Command) : (s.withCommands cs).fbuf = s.fbuf := rfl
@[simp] theorem withCommands_status (s : State) (cs : List Command) : (s.withCommands cs).status = s.status := rfl
@[simp] theorem withCommands_input (s : State) (cs : List Command) :
    (s.withCommands cs).input = cs.map .command := rfl
@[simp] theorem withCommands_response (s : State) (cs : List Command) :
    (s.withCommands cs).response = s.response := rfl

@[simp] theorem withFetchWord_crcAcc (s : State) (n w : Nat) : (s.withFetchWord n w).crcAcc = s.crcAcc := rfl
@[simp] theorem withFetchWord_fbuf (s : State) (n w : Nat) : (s.withFetchWord n w).fbuf = s.fbuf := rfl
@[simp] theorem withFetchWord_status (s : State) (n w : Nat) : (s.withFetchWord n w).status = s.status := rfl
@[simp] theorem withFetchWord_response (s : State) (n w : Nat) :
    (s.withFetchWord n w).response = s.response := rfl

/-- STATUS as one word is the sum of its fields at their bit positions. -/
theorem word_toNat (st : Status) :
    st.word.toNat =
      st.err.toNat + (if st.mtch then 8 else 0) + 256 * st.cause.toNat + 65536 * st.index.toNat := by
  obtain ⟨err, mtch, cause, index⟩ := st
  have h1 := err.isLt
  have h2 := cause.isLt
  have h3 := index.isLt
  have hm : (BitVec.ofBool mtch).toNat = if mtch then 1 else 0 := by cases mtch <;> rfl
  simp only [Status.word, BitVec.toNat_append, BitVec.toNat_ofNat, hm]
  rw [← Nat.shiftLeft_add_eq_or_of_lt h1, ← Nat.shiftLeft_add_eq_or_of_lt (by split <;> omega),
    ← Nat.shiftLeft_add_eq_or_of_lt (by omega), ← Nat.shiftLeft_add_eq_or_of_lt h2,
    ← Nat.shiftLeft_add_eq_or_of_lt h3]
  simp only [Nat.shiftLeft_eq]
  split <;> omega

theorem word_eq_statusValue (st : Status) :
    st.word = statusValue st.err.toNat st.mtch st.cause.toNat st.index.toNat := by
  apply BitVec.eq_of_toNat_eq
  rw [statusValue, BitVec.toNat_ofNat, ← word_toNat, Nat.mod_eq_of_lt st.word.isLt]

end Sys2Proof.Machine
end

