-- ==== Sys2Proof/Laws/Memory.lean ====
section
/-! SUPPORT. FBUF as a canonical list: what a read gives after a write, and that every write keeps the canonical form and
the bounds. -/

namespace Sys2Proof.Machine

/-- The canonical form of a non-empty memory. -/
theorem wf_cons (k : Nat) (v : Byte) (m : Memory) :
    Memory.wf ((k, v) :: m) = true ↔ v ≠ 0#8 ∧ (∀ cell ∈ m, k < cell.1) ∧ m.wf = true := by
  induction m generalizing k v with
  | nil => simp [Memory.wf]
  | cons cell rest ih =>
    obtain ⟨k', v'⟩ := cell
    simp only [Memory.wf, Bool.and_eq_true, bne_iff_ne, ne_eq, decide_eq_true_eq, List.mem_cons, forall_eq_or_imp]
    constructor
    · rintro ⟨⟨hv, hlt⟩, h⟩
      exact ⟨hv, ⟨hlt, fun c hc => Nat.lt_trans hlt (((ih k' v').mp h).2.1 c hc)⟩, h⟩
    · rintro ⟨hv, ⟨hlt, _⟩, h⟩
      exact ⟨⟨hv, hlt⟩, h⟩

/-- Below the first listed offset every byte is 0x00. -/
theorem read_of_lt (m : Memory) (a : Nat) (h : ∀ cell ∈ m, a < cell.1) : m.read a = 0#8 := by
  induction m with
  | nil => rfl
  | cons cell rest ih =>
    obtain ⟨k, v⟩ := cell
    have hk : a < k := h (k, v) (by simp)
    simp only [Memory.read, if_neg (Nat.ne_of_lt hk)]
    exact ih fun c hc => h c (by simp [hc])

theorem read_cons (m : Memory) (a x : Nat) (b : Byte) (h : ∀ cell ∈ m, a < cell.1) :
    (Memory.cons a b m).read x = if x = a then b else m.read x := by
  unfold Memory.cons
  split
  · rename_i hb
    split
    · rename_i hx
      rw [hx, hb, read_of_lt m a h]
    · rfl
  · rfl

/-- A read after a write: the byte written at its own offset, every other byte as before. -/
theorem read_write (m : Memory) (h : m.wf = true) (a x : Nat) (b : Byte) :
    (m.write a b).read x = if x = a then b else m.read x := by
  induction m with
  | nil => exact read_cons [] a x b (by simp)
  | cons cell rest ih =>
    obtain ⟨k, v⟩ := cell
    obtain ⟨hv, hk, hr⟩ := (wf_cons k v rest).mp h
    simp only [Memory.write]
    split
    · rename_i hlt
      apply read_cons
      intro c hc
      rcases List.mem_cons.mp hc with rfl | hc
      · exact hlt
      · exact Nat.lt_trans hlt (hk c hc)
    · split
      · rename_i _ heq
        subst heq
        rw [read_cons _ _ _ _ hk]
        by_cases hx : x = a
        · simp [hx]
        · simp [hx, Memory.read]
      · rename_i hge hne
        simp only [Memory.read]
        by_cases hx : x = k
        · simp [hx, Ne.symm hne]
        · simp only [if_neg hx, ih hr]

theorem mem_cons_cell {m : Memory} {a : Nat} {b : Byte} {cell : Host.Cell} (h : cell ∈ Memory.cons a b m) :
    cell = (a, b) ∨ cell ∈ m := by
  unfold Memory.cons at h
  split at h
  · exact .inr h
  · exact List.mem_cons.mp h

theorem mem_write {m : Memory} {a : Nat} {b : Byte} {cell : Host.Cell} (h : cell ∈ m.write a b) :
    cell = (a, b) ∨ cell ∈ m := by
  induction m with
  | nil => exact mem_cons_cell h
  | cons head rest ih =>
    obtain ⟨k, v⟩ := head
    simp only [Memory.write] at h
    split at h
    · exact mem_cons_cell h
    · split at h
      · exact (mem_cons_cell h).imp_right fun hc => List.mem_cons_of_mem _ hc
      · rcases List.mem_cons.mp h with rfl | hc
        · exact .inr (by simp)
        · exact (ih hc).imp_right fun hc => List.mem_cons_of_mem _ hc

theorem wf_cons_cell {m : Memory} (h : m.wf = true) (a : Nat) (b : Byte) (ha : ∀ cell ∈ m, a < cell.1) :
    (Memory.cons a b m).wf = true := by
  unfold Memory.cons
  split
  · exact h
  · rename_i hb
    exact (wf_cons a b m).mpr ⟨hb, ha, h⟩

/-- A write keeps the canonical form. -/
theorem wf_write (m : Memory) (h : m.wf = true) (a : Nat) (b : Byte) : (m.write a b).wf = true := by
  induction m with
  | nil => exact wf_cons_cell h a b (by simp)
  | cons cell rest ih =>
    obtain ⟨k, v⟩ := cell
    obtain ⟨hv, hk, hr⟩ := (wf_cons k v rest).mp h
    simp only [Memory.write]
    split
    · rename_i hlt
      refine wf_cons_cell h a b fun c hc => ?_
      rcases List.mem_cons.mp hc with rfl | hc
      · exact hlt
      · exact Nat.lt_trans hlt (hk c hc)
    · split
      · rename_i _ heq
        exact wf_cons_cell hr a b (heq ▸ hk)
      · rename_i hge hne
        refine (wf_cons _ _ _).mpr ⟨hv, fun c hc => ?_, ih hr⟩
        rcases mem_write hc with rfl | hc
        · show k < a
          omega
        · exact hk c hc

/-- The bytes a multi-byte write leaves. -/
theorem read_writeBytes (bs : List Byte) (m : Memory) (h : m.wf = true) (a x : Nat) :
    (m.writeBytes a bs).read x = if a ≤ x ∧ x < a + bs.length then bs.getD (x - a) 0#8 else m.read x := by
  induction bs generalizing m a with
  | nil =>
    have : ¬(a ≤ x ∧ x < a + 0) := by omega
    simp [Memory.writeBytes]
  | cons b bs ih =>
    simp only [Memory.writeBytes, ih _ (wf_write m h a b), read_write m h, List.length_cons]
    by_cases hx : x = a
    · subst hx
      have h1 : ¬(x + 1 ≤ x ∧ x < x + 1 + bs.length) := by omega
      have h2 : x ≤ x ∧ x < x + (bs.length + 1) := by omega
      rw [if_neg h1, if_pos rfl, if_pos h2, Nat.sub_self, List.getD_cons_zero]
    · by_cases h1 : a + 1 ≤ x ∧ x < a + 1 + bs.length
      · have h2 : a ≤ x ∧ x < a + (bs.length + 1) := by omega
        have h3 : x - a = (x - (a + 1)) + 1 := by omega
        rw [if_pos h1, if_pos h2, h3, List.getD_cons_succ]
      · have h2 : ¬(a ≤ x ∧ x < a + (bs.length + 1)) := by omega
        rw [if_neg h1, if_neg h2, if_neg hx]

/-- A multi-byte write keeps the canonical form. -/
theorem wf_writeBytes (bs : List Byte) (m : Memory) (h : m.wf = true) (a : Nat) :
    (m.writeBytes a bs).wf = true := by
  induction bs generalizing m a with
  | nil => exact h
  | cons b bs ih => exact ih _ (wf_write m h a b) _

theorem mem_writeBytes {bs : List Byte} {m : Memory} {a : Nat} {cell : Host.Cell} (h : cell ∈ m.writeBytes a bs) :
    (a ≤ cell.1 ∧ cell.1 < a + bs.length) ∨ cell ∈ m := by
  induction bs generalizing m a with
  | nil => exact .inr h
  | cons b bs ih =>
    rcases ih h with hc | hc
    · exact .inl ⟨by omega, by simp only [List.length_cons]; omega⟩
    · rcases mem_write hc with rfl | hc
      · exact .inl ⟨Nat.le_refl _, by simp⟩
      · exact .inr hc

@[simp] theorem length_readBytes (m : Memory) (a n : Nat) : (m.readBytes a n).length = n := by
  induction n generalizing a with
  | zero => rfl
  | succ n ih => simp [Memory.readBytes, ih]

theorem getElem_readBytes (m : Memory) (a n i : Nat) (h : i < (m.readBytes a n).length) :
    (m.readBytes a n)[i] = m.read (a + i) := by
  induction n generalizing a i with
  | zero => simp at h
  | succ n ih =>
    cases i with
    | zero => rfl
    | succ i =>
      simp only [Memory.readBytes, List.getElem_cons_succ]
      rw [ih]
      congr 1
      omega

/-- A multi-byte read gives the bytes of a sequence that stands there. -/
theorem readBytes_eq {m : Memory} {a n : Nat} {bs : List Byte} (hl : bs.length = n)
    (h : ∀ i, i < n → m.read (a + i) = bs.getD i 0#8) : m.readBytes a n = bs := by
  apply List.ext_getElem
  · simp [hl]
  · intro i h1 h2
    rw [getElem_readBytes, h i (by omega), List.getD_eq_getElem _ _ h2]

/-- Two canonical memories that read alike are equal. -/
theorem eq_of_read_eq (m m' : Memory) (h : m.wf = true) (h' : m'.wf = true) (hr : ∀ a, m.read a = m'.read a) :
    m = m' := by
  induction m generalizing m' with
  | nil =>
    cases m' with
    | nil => rfl
    | cons cell rest =>
      obtain ⟨k, v⟩ := cell
      have := hr k
      simp only [Memory.read, if_true] at this
      exact absurd this.symm ((wf_cons k v rest).mp h').1
  | cons cell rest ih =>
    obtain ⟨k, v⟩ := cell
    obtain ⟨hv, hk, hw⟩ := (wf_cons k v rest).mp h
    cases m' with
    | nil =>
      have := hr k
      simp only [Memory.read, if_true] at this
      exact absurd this hv
    | cons cell' rest' =>
      obtain ⟨k', v'⟩ := cell'
      obtain ⟨hv', hk', hw'⟩ := (wf_cons k' v' rest').mp h'
      have key : k = k' := by
        rcases Nat.lt_trichotomy k k' with hlt | heq | hgt
        · have := hr k
          rw [read_of_lt ((k', v') :: rest') k (fun c hc => by
            rcases List.mem_cons.mp hc with rfl | hc
            · exact hlt
            · exact Nat.lt_trans hlt (hk' c hc))] at this
          simp only [Memory.read, if_true] at this
          exact absurd this hv
        · exact heq
        · have := hr k'
          rw [read_of_lt ((k, v) :: rest) k' (fun c hc => by
            rcases List.mem_cons.mp hc with rfl | hc
            · exact hgt
            · exact Nat.lt_trans hgt (hk c hc))] at this
          simp only [Memory.read, if_true] at this
          exact absurd this.symm hv'
      subst key
      have hval := hr k
      simp only [Memory.read, if_true] at hval
      subst hval
      rw [ih rest' hw hw' fun a => ?_]
      have := hr a
      simp only [Memory.read] at this
      split at this
      · rename_i ha
        rw [ha, read_of_lt rest k hk, read_of_lt rest' k hk']
      · exact this

/-- What `memRead` can answer. -/
theorem memRead_eq_some {cfg : Config} {m : Memory} {a n : Nat} {bs : List Byte} :
    memRead cfg m a n = some bs ↔ a + n ≤ cfg.reportLen ∧ m.readBytes a n = bs := by
  unfold memRead
  split <;> simp_all

/-- What `memWrite` can answer. -/
theorem memWrite_eq_some {cfg : Config} {m m' : Memory} {a : Nat} {v : List Byte} :
    memWrite cfg m a v = some m' ↔ a + v.length ≤ cfg.reportLen ∧ m.writeBytes a v = m' := by
  unfold memWrite
  split <;> simp_all

/-- `memWrite` keeps the canonical form. -/
theorem wf_memWrite {cfg : Config} {m m' : Memory} {a : Nat} {v : List Byte} (h : memWrite cfg m a v = some m')
    (hw : m.wf = true) : m'.wf = true := by
  obtain ⟨_, rfl⟩ := memWrite_eq_some.mp h
  exact wf_writeBytes v m hw a

theorem insideFbuf_iff (m : Memory) : m.insideFbuf = true ↔ ∀ cell ∈ m, cell.1 < 129 := by
  simp [Memory.insideFbuf]

/-- `memWrite` of the reference hardware keeps every listed offset inside FBUF. -/
theorem inside_memWrite {m m' : Memory} {a : Nat} {v : List Byte}
    (h : memWrite Config.hardware m a v = some m') (hi : m.insideFbuf = true) : m'.insideFbuf = true := by
  obtain ⟨hl, rfl⟩ := memWrite_eq_some.mp h
  have hl' : a + v.length ≤ 129 := hl
  rw [insideFbuf_iff] at *
  intro cell hc
  rcases mem_writeBytes hc with hc | hc
  · omega
  · exact hi cell hc

/-- Reset's memory is canonical and inside FBUF. -/
theorem reset_fbuf_wf : State.reset.fbuf.wf = true ∧ State.reset.fbuf.insideFbuf = true := ⟨rfl, rfl⟩

end Sys2Proof.Machine
end

