-- ==== Sys2Proof/Laws/Operands.lean ====
section
/-! SUPPORT. The data formats: what the descriptor check answers, how byte sequences split into descriptors and records,
and what coding a sequence of them answers. -/

namespace Sys2Proof.Machine

@[simp] theorem length_descriptor_bytes (d : Descriptor) : d.bytes.length = 9 := rfl
@[simp] theorem length_record_bytes (r : Record) : r.bytes.length = 4 := rfl
@[simp] theorem descriptor_ofBytes_bytes (d : Descriptor) : Descriptor.ofBytes d.bytes = some d := rfl
@[simp] theorem record_ofBytes_bytes (r : Record) : Record.ofBytes r.bytes = some r := rfl
@[simp] theorem length_crcBytes (v : Crc) : (crcBytes v).length = 2 := rfl
@[simp] theorem length_zeros (k : Nat) : (zeros k).length = k := List.length_replicate

/-- The two ways a byte sequence is read as a descriptor. -/
theorem descriptor_ofBytes_cases (l : List Byte) :
    (l.length ≠ 9 ∧ Descriptor.ofBytes l = none) ∨ ∃ d : Descriptor, l = d.bytes ∧ Descriptor.ofBytes l = some d := by
  unfold Descriptor.ofBytes
  split
  · exact .inr ⟨_, rfl, rfl⟩
  · rename_i h
    refine .inl ⟨fun hl => ?_, rfl⟩
    match l, hl with
    | [_, _, _, _, _, _, _, _, _], _ => exact h _ _ _ _ _ _ _ _ _ rfl

/-- The two ways a byte sequence is read as a record. -/
theorem record_ofBytes_cases (l : List Byte) :
    (l.length ≠ 4 ∧ Record.ofBytes l = none) ∨ ∃ r : Record, l = r.bytes ∧ Record.ofBytes l = some r := by
  unfold Record.ofBytes
  split
  · exact .inr ⟨_, rfl, rfl⟩
  · rename_i h
    refine .inl ⟨fun hl => ?_, rfl⟩
    match l, hl with
    | [_, _, _, _], _ => exact h _ _ _ _ rfl

theorem descriptorsOf_flatMap (ds : List Descriptor) : descriptorsOf (ds.flatMap Descriptor.bytes) = ds := by
  induction ds with
  | nil => rfl
  | cons d ds ih =>
    rw [List.flatMap_cons]
    exact congrArg (d :: ·) ih

/-- A sequence of 9n bytes is n descriptors. -/
theorem descriptorsOf_spec (n : Nat) (l : List Byte) (h : l.length = 9 * n) :
    (descriptorsOf l).length = n ∧ (descriptorsOf l).flatMap Descriptor.bytes = l := by
  induction n generalizing l with
  | zero =>
    have : l = [] := List.eq_nil_of_length_eq_zero (by omega)
    subst this
    exact ⟨rfl, rfl⟩
  | succ n ih =>
    match l, h with
    | d0 :: d1 :: d2 :: d3 :: d4 :: d5 :: d6 :: d7 :: d8 :: rest, h =>
      have hr : rest.length = 9 * n := by simp only [List.length_cons] at h; omega
      obtain ⟨h1, h2⟩ := ih rest hr
      refine ⟨by simp only [descriptorsOf, List.length_cons, h1], ?_⟩
      simp only [descriptorsOf, List.flatMap_cons, h2]
      rfl

theorem recordsOf_flatMap (rs : List Record) : recordsOf (rs.flatMap Record.bytes) = rs := by
  induction rs with
  | nil => rfl
  | cons r rs ih =>
    rw [List.flatMap_cons]
    exact congrArg (r :: ·) ih

/-- A sequence of 4n bytes is n records. -/
theorem recordsOf_spec (n : Nat) (l : List Byte) (h : l.length = 4 * n) :
    (recordsOf l).length = n ∧ (recordsOf l).flatMap Record.bytes = l := by
  induction n generalizing l with
  | zero =>
    have : l = [] := List.eq_nil_of_length_eq_zero (by omega)
    subst this
    exact ⟨rfl, rfl⟩
  | succ n ih =>
    match l, h with
    | r0 :: r1 :: r2 :: r3 :: rest, h =>
      have hr : rest.length = 4 * n := by simp only [List.length_cons] at h; omega
      obtain ⟨h1, h2⟩ := ih rest hr
      refine ⟨by simp only [recordsOf, List.length_cons, h1], ?_⟩
      simp only [recordsOf, List.flatMap_cons, h2]
      rfl

/-- Everything the descriptor check can answer. -/
theorem checkDescriptor_cases (d : Descriptor) (i : Byte) :
    (checkDescriptor d i = none ∧ d.wellFormed = true) ∨
    (d.wellFormed = false ∧ (checkDescriptor d i = some (.colorMode i) ∨ checkDescriptor d i = some (.ledMode i) ∨
      (checkDescriptor d i = some (.colorRange i) ∧ ¬(d.color1.quantized = true ∧ d.color2.quantized = true)))) := by
  unfold checkDescriptor Descriptor.wellFormed Rgb.quantized
  split
  · rename_i h
    exact .inr ⟨by simp [BitVec.not_le.mpr h], .inl rfl⟩
  · split
    · rename_i h
      exact .inr ⟨by simp [BitVec.not_le.mpr h], .inr (.inl rfl)⟩
    · split
      · rename_i h
        refine .inr ⟨?_, .inr (.inr ⟨rfl, ?_⟩)⟩
        · simp only [Bool.and_eq_false_iff, decide_eq_false_iff_not, BitVec.not_le]
          tauto
        · simp only [Bool.and_eq_true, decide_eq_true_eq, ← BitVec.not_lt]
          tauto
      · rename_i h1 h2 h3
        refine .inl ⟨rfl, ?_⟩
        simp only [Bool.and_eq_true, decide_eq_true_eq, ← BitVec.not_lt]
        tauto

/-- The check passes exactly on the well-formed descriptors. -/
theorem checkDescriptor_eq_none (d : Descriptor) (i : Byte) : checkDescriptor d i = none ↔ d.wellFormed = true := by
  rcases checkDescriptor_cases d i with ⟨h1, h2⟩ | ⟨h1, h2 | h2 | ⟨h2, _⟩⟩ <;> simp [h1, h2]

theorem field3_toNat_le (g : BitVec 24) (lo : Nat) : field3 g lo ≤ 7#8 := by
  have h := (g.extractLsb' lo 3).isLt
  rw [BitVec.le_def, field3, BitVec.toNat_setWidth]
  exact Nat.le_trans (Nat.mod_le _ _) (by simpa using Nat.le_of_lt_succ h)

/-- Every channel of an unpacked record is 3 bits. -/
theorem unpackRecord_quantized (r : Record) :
    (unpackRecord r).color1.quantized = true ∧ (unpackRecord r).color2.quantized = true := by
  simp only [unpackRecord, Rgb.quantized, field3_toNat_le, decide_true, Bool.and_self, and_self]

/-- The check of an unpacked record fails only on an ordinal. -/
theorem checkDescriptor_unpack (r : Record) (i : Byte) :
    checkDescriptor (unpackRecord r) i = none ∨ checkDescriptor (unpackRecord r) i = some (.colorMode i) ∨
      checkDescriptor (unpackRecord r) i = some (.ledMode i) := by
  rcases checkDescriptor_cases (unpackRecord r) i with ⟨h, _⟩ | ⟨_, h | h | ⟨_, h⟩⟩
  · exact .inl h
  · exact .inr (.inl h)
  · exact .inr (.inr h)
  · exact absurd (unpackRecord_quantized r) h

/-- Encoding well-formed descriptors concatenates their records. -/
theorem encodeRecords_ok (ds : List Descriptor) (i : Nat) (h : ∀ d ∈ ds, d.wellFormed = true) :
    encodeRecords i ds = .ok (ds.flatMap fun d => (packRecord d).bytes) := by
  induction ds generalizing i with
  | nil => rfl
  | cons d ds ih =>
    simp only [encodeRecords, (checkDescriptor_eq_none d _).mpr (h d (by simp)),
      ih (i + 1) fun d' hd => h d' (by simp [hd]), List.flatMap_cons]

/-- Encoding reports the first descriptor that fails its check. -/
theorem encodeRecords_first (pre : List Descriptor) (d : Descriptor) (post : List Descriptor) (i : Nat) (e : CmdError)
    (h : ∀ d' ∈ pre, d'.wellFormed = true) (he : checkDescriptor d (BitVec.ofNat 8 (i + pre.length)) = some e) :
    encodeRecords i (pre ++ d :: post) = .error e := by
  induction pre generalizing i with
  | nil =>
    simp only [List.length_nil, Nat.add_zero] at he
    simp only [List.nil_append, encodeRecords, he]
  | cons p pre ih =>
    have he' : checkDescriptor d (BitVec.ofNat 8 (i + 1 + pre.length)) = some e := by
      rw [← he, List.length_cons, Nat.add_assoc, Nat.add_comm 1]
    simp only [List.cons_append, encodeRecords, (checkDescriptor_eq_none p _).mpr (h p (by simp)),
      ih (i + 1) (fun d' hd => h d' (by simp [hd])) he']

/-- Everything encoding can answer: the records of well-formed descriptors, or the error of one of them. -/
theorem encodeRecords_cases (ds : List Descriptor) (i : Nat) :
    ((∀ d ∈ ds, d.wellFormed = true) ∧ encodeRecords i ds = .ok (ds.flatMap fun d => (packRecord d).bytes)) ∨
    ∃ d k e, k < ds.length ∧ checkDescriptor d (BitVec.ofNat 8 (i + k)) = some e ∧ encodeRecords i ds = .error e := by
  induction ds generalizing i with
  | nil => exact .inl ⟨by simp, rfl⟩
  | cons d ds ih =>
    cases hc : checkDescriptor d (BitVec.ofNat 8 i) with
    | some e => exact .inr ⟨d, 0, e, by simp, by simpa using hc, by simp only [encodeRecords, hc]⟩
    | none =>
      rcases ih (i + 1) with ⟨hw, ho⟩ | ⟨d', k, e, hk, hd, he⟩
      · refine .inl ⟨?_, by simp only [encodeRecords, hc, ho, List.flatMap_cons]⟩
        simpa using ⟨(checkDescriptor_eq_none d _).mp hc, hw⟩
      · refine .inr ⟨d', k + 1, e, by simpa using hk, ?_, by simp only [encodeRecords, hc, he]⟩
        rw [← hd, Nat.add_assoc, Nat.add_comm 1]

/-- Decoding records whose descriptors are well-formed concatenates the descriptors. -/
theorem decodeRecords_ok (rs : List Record) (i : Nat) (h : ∀ r ∈ rs, (unpackRecord r).wellFormed = true) :
    decodeRecords i rs = .ok (rs.flatMap fun r => (unpackRecord r).bytes) := by
  induction rs generalizing i with
  | nil => rfl
  | cons r rs ih =>
    simp only [decodeRecords, (checkDescriptor_eq_none (unpackRecord r) _).mpr (h r (by simp)),
      ih (i + 1) fun r' hr => h r' (by simp [hr]), List.flatMap_cons]

/-- Decoding reports the first record whose descriptor fails its check. -/
theorem decodeRecords_first (pre : List Record) (r : Record) (post : List Record) (i : Nat) (e : CmdError)
    (h : ∀ r' ∈ pre, (unpackRecord r').wellFormed = true)
    (he : checkDescriptor (unpackRecord r) (BitVec.ofNat 8 (i + pre.length)) = some e) :
    decodeRecords i (pre ++ r :: post) = .error e := by
  induction pre generalizing i with
  | nil =>
    simp only [List.length_nil, Nat.add_zero] at he
    simp only [List.nil_append, decodeRecords, he]
  | cons p pre ih =>
    have he' : checkDescriptor (unpackRecord r) (BitVec.ofNat 8 (i + 1 + pre.length)) = some e := by
      rw [← he, List.length_cons, Nat.add_assoc, Nat.add_comm 1]
    simp only [List.cons_append, decodeRecords, (checkDescriptor_eq_none (unpackRecord p) _).mpr (h p (by simp)),
      ih (i + 1) (fun r' hr => h r' (by simp [hr])) he']

/-- Everything decoding can answer: the descriptors of the records, or the error of one of them. -/
theorem decodeRecords_cases (rs : List Record) (i : Nat) :
    ((∀ r ∈ rs, (unpackRecord r).wellFormed = true) ∧
      decodeRecords i rs = .ok (rs.flatMap fun r => (unpackRecord r).bytes)) ∨
    ∃ r k e, k < rs.length ∧ checkDescriptor (unpackRecord r) (BitVec.ofNat 8 (i + k)) = some e ∧
      decodeRecords i rs = .error e := by
  induction rs generalizing i with
  | nil => exact .inl ⟨by simp, rfl⟩
  | cons r rs ih =>
    cases hc : checkDescriptor (unpackRecord r) (BitVec.ofNat 8 i) with
    | some e => exact .inr ⟨r, 0, e, by simp, by simpa using hc, by simp only [decodeRecords, hc]⟩
    | none =>
      rcases ih (i + 1) with ⟨hw, ho⟩ | ⟨r', k, e, hk, hd, he⟩
      · refine .inl ⟨?_, by simp only [decodeRecords, hc, ho, List.flatMap_cons]⟩
        simpa using ⟨(checkDescriptor_eq_none _ _).mp hc, hw⟩
      · refine .inr ⟨r', k + 1, e, by simpa using hk, ?_, by simp only [decodeRecords, hc, he]⟩
        rw [← hd, Nat.add_assoc, Nat.add_comm 1]

/-- `parse_hex` raises only HEX_LEN and HEX_CHAR. -/
theorem parseHex_error {str : List Byte} {e : CmdError} (h : parseHex str = .error e) :
    e = .hexLen ∨ e = .hexChar := by
  unfold parseHex at h
  split at h
  · exact .inl (Except.error.inj h).symm
  · split at h
    · exact .inr (Except.error.inj h).symm
    · exact nomatch h
    · exact nomatch h
    · exact .inl (Except.error.inj h).symm

@[simp] theorem length_packed (ds : List Descriptor) :
    (ds.flatMap fun d => (packRecord d).bytes).length = 4 * ds.length := by
  induction ds with
  | nil => rfl
  | cons d ds ih => simp only [List.flatMap_cons, List.length_append, ih, length_record_bytes, List.length_cons]; omega

end Sys2Proof.Machine
end

