-- ==== Sys2Proof/Laws/Exec.lean ====
section
/-! SUPPORT. What a command can do, said once: the shared ends of a command, and the inversion of `exec`. -/

namespace Sys2Proof.Machine

/-- `raise` is the error outcome written out from the spec's layout of STATUS. -/
theorem raise_eq (e : CmdError) (s : State) :
    raise e s = .next (afterError s e.errClass.code.toNat e.cause.toNat e.index.toNat s.status.mtch) := by
  simp [raise, afterError, State.respond, State.host, word_eq_statusValue, Status.failed]

/-- `complete` is the success outcome written out from the spec's layout of STATUS. -/
theorem complete_eq (out : List Byte) (s : State) :
    complete out s = .next (afterSuccess s s.crcAcc s.fbuf s.status.mtch out) := by
  simp [complete, afterSuccess, State.respond, State.host, word_eq_statusValue, Status.succeeded, ErrClass.code]

/-- The ways the command `i` can end on `s`: an error it may raise, with no write but STATUS; a success that writes
CRC_ACC, FBUF and MATCH only where the command writes them; or, for ST.READ, a success that keeps STATUS. -/
inductive Ends (i : Instr) (s : State) : Result → Prop where
  | error (e : CmdError) (k : Bool) (he : mayRaise i e = true) (hk : i ≠ .frmParse → k = s.status.mtch) :
      Ends i s (raise e { s with status := { s.status with mtch := k } })
  | success (c : Crc) (m : Memory) (k : Bool) (out : List Byte) (hs : i ≠ .stRead)
      (hc : writesCrc i = false → c = s.crcAcc) (hm : writesFbuf i = false → m = s.fbuf)
      (hw : s.fbuf.wf = true → m.wf = true) (hi : s.fbuf.insideFbuf = true → m.insideFbuf = true)
      (hk : i ≠ .frmParse → k = s.status.mtch) :
      Ends i s (complete out { s with crcAcc := c, fbuf := m, status := { s.status with mtch := k } })
  | kept (hs : i = .stRead) : Ends i s (completeKeepStatus (wordToBytes s.status.word) s)

/-- An error of a command that leaves MATCH alone. -/
theorem Ends.error_of {i : Instr} {s : State} {e : CmdError} (he : mayRaise i e = true) : Ends i s (raise e s) :=
  .error e s.status.mtch he fun _ => rfl

/-- A success that writes nothing. -/
theorem Ends.success_of {i : Instr} {s : State} (out : List Byte) (hs : i ≠ .stRead) : Ends i s (complete out s) :=
  .success s.crcAcc s.fbuf s.status.mtch out hs (fun _ => rfl) (fun _ => rfl) id id fun _ => rfl

/-- A success that writes CRC_ACC only. -/
theorem Ends.success_crc {i : Instr} {s : State} (c : Crc) (out : List Byte) (hs : i ≠ .stRead)
    (hc : writesCrc i = true) : Ends i s (complete out { s with crcAcc := c }) :=
  .success c s.fbuf s.status.mtch out hs (by simp [hc]) (fun _ => rfl) id id fun _ => rfl

theorem execRecEnc_ends (s : State) : Ends .recEnc s (execRecEnc s) := by
  unfold execRecEnc
  split
  · exact .error_of rfl
  · rename_i d _
    split
    · rename_i e he
      rcases checkDescriptor_cases d 0xFF#8 with ⟨h, _⟩ | ⟨_, h | h | ⟨h, _⟩⟩ <;> rw [h] at he <;>
        cases he <;> exact .error_of rfl
    · exact .success_of _ (by simp)

theorem execRecDec_ends (s : State) : Ends .recDec s (execRecDec s) := by
  unfold execRecDec
  split
  · exact .error_of rfl
  · rename_i r _
    split
    · rename_i e he
      rcases checkDescriptor_unpack r 0xFF#8 with h | h | h <;> rw [h] at he <;> cases he <;> exact .error_of rfl
    · exact .success_of _ (by simp)

theorem execFrmBuild_ends (n x y : Byte) (s : State) : Ends (.frmBuild n x y) s (execFrmBuild n x y s) := by
  unfold execFrmBuild frmBuild
  split
  · exact .error_of rfl
  · rename_i hn
    split
    · exact .error_of rfl
    · rename_i hl
      split
      · exact .error_of rfl
      · rename_i hd
        have hlen := (descriptorsOf_spec n.toNat s.din (by omega)).1
        rcases encodeRecords_cases (descriptorsOf s.din) 0 with ⟨_, ho⟩ | ⟨d, k, e, hk, hc, ho⟩
        · rw [ho]
          dsimp only
          split
          · rename_i hw
            simp [memWrite, frameOf, Config.hardware, hlen] at hw
            simp [Config.maxRecords, Config.recordBytes, Config.hardware] at hn hl
            omega
          · rename_i m hm
            exact .success _ m s.status.mtch [] (by simp) (by simp [writesCrc]) (by simp [writesFbuf])
              (wf_memWrite hm) (inside_memWrite hm) fun _ => rfl
        · rw [ho]
          dsimp only
          refine Ends.error_of ?_
          have hk16 : (BitVec.ofNat 8 (0 + k)).toNat < 16 := by
            simp only [Config.maxRecords] at hn
            simp only [BitVec.toNat_ofNat]
            omega
          generalize BitVec.ofNat 8 (0 + k) = j at hc hk16
          rcases checkDescriptor_cases d j with ⟨h, _⟩ | ⟨_, h | h | ⟨h, _⟩⟩ <;> rw [h] at hc <;>
            cases hc <;> simp [mayRaise, CmdError.ordinalAt, CmdError.rangeAt, recordIndex, hk16]

theorem execFrmParse_ends (s : State) : Ends .frmParse s (execFrmParse s) := by
  have error_with : ∀ (e : CmdError) (k : Bool), mayRaise .frmParse e = true →
      Ends .frmParse s (raise e { s with status := { s.status with mtch := k } }) :=
    fun e k he => .error e k he (by simp)
  have success_with : ∀ (k : Bool) (out : List Byte),
      Ends .frmParse s (complete out { s with status := { s.status with mtch := k } }) :=
    fun k out => .success s.crcAcc s.fbuf k out (by simp) (fun _ => rfl) (fun _ => rfl) id id (by simp)
  unfold execFrmParse frmParse
  split
  · exact .error_of rfl
  · have h3 : memRead Config.hardware s.fbuf 0 3 = some (s.fbuf.readBytes 0 3) := by
      simp [memRead, Config.hardware]
    rw [h3]
    dsimp only
    split
    · have h1 : ∀ m : Memory, memRead Config.hardware m 7 1 = some [m.read 7] := by
        simp [memRead, Config.hardware, Memory.readBytes]
      unfold parseRecords
      rw [h1]
      dsimp only
      split
      · exact error_with _ _ rfl
      · rename_i hk
        split
        · rename_i hr
          rw [memRead, if_pos (by omega)] at hr
          cases hr
        · rename_i recs hr
          obtain ⟨_, rfl⟩ := memRead_eq_some.mp hr
          have hlen := (recordsOf_spec (s.fbuf.read 7).toNat
            (s.fbuf.readBytes 8 (Config.recordBytes * (s.fbuf.read 7).toNat)) (by simp [Config.recordBytes])).1
          rcases decodeRecords_cases
            (recordsOf (s.fbuf.readBytes 8 (Config.recordBytes * (s.fbuf.read 7).toNat))) 0 with
            ⟨_, ho⟩ | ⟨r, k, e, hkl, hc, ho⟩
          · rw [ho]
            exact success_with _ _
          · rw [ho]
            dsimp only
            refine error_with _ _ ?_
            have hk16 : (BitVec.ofNat 8 (0 + k)).toNat < 16 := by
              simp only [Config.maxRecords] at hk
              simp only [BitVec.toNat_ofNat]
              omega
            generalize BitVec.ofNat 8 (0 + k) = j at hc hk16
            rcases checkDescriptor_unpack r j with h | h | h <;> rw [h] at hc <;>
              cases hc <;> simp [mayRaise, CmdError.ordinalAt, recordIndex, hk16]
    · exact success_with _ _

theorem execFbLoad_ends (s : State) : Ends .fbLoad s (execFbLoad s) := by
  unfold execFbLoad fbLoad
  split
  · exact .error_of rfl
  · rename_i hl
    split
    · rename_i hw
      simp [memWrite] at hw
      omega
    · rename_i m hm
      exact .success s.crcAcc m s.status.mtch [] (by simp) (fun _ => rfl) (by simp [writesFbuf])
        (wf_memWrite hm) (inside_memWrite hm) fun _ => rfl

theorem execFbRead_ends (s : State) : Ends .fbRead s (execFbRead s) := by
  unfold execFbRead fbRead
  split
  · exact .error_of rfl
  · split
    · rename_i h
      simp [memRead] at h
    · exact .success_of _ (by simp)

/-- Everything a command can do. -/
theorem exec_ends (i : Instr) (s : State) : Ends i s (exec i s) := by
  cases i with
  | qntCh c =>
    simp only [exec, execQntCh]
    split
    · exact .error_of rfl
    · exact .success_of _ (by simp)
  | qntRgb r g b =>
    simp only [exec, execQntRgb]
    split
    · exact .error_of rfl
    · exact .success_of _ (by simp)
  | qntHex =>
    simp only [exec, execQntHex]
    split
    · rename_i e he
      rcases parseHex_error he with rfl | rfl <;> exact .error_of rfl
    · exact .success_of _ (by simp)
  | dqnCh v =>
    simp only [exec, execDqnCh]
    split
    · exact .error_of rfl
    · exact .success_of _ (by simp)
  | dqnHex r g b =>
    simp only [exec, execDqnHex]
    split
    · exact .error_of rfl
    · exact .success_of _ (by simp)
  | recEnc => exact execRecEnc_ends s
  | recDec => exact execRecDec_ends s
  | crcInit =>
    simp only [exec, execCrcInit, crcInit]
    split
    · exact .error_of rfl
    · exact .success_crc _ _ (by simp) rfl
  | crcByte b =>
    simp only [exec, execCrcByte, crcByte]
    split
    · exact .error_of rfl
    · exact .success_crc _ _ (by simp) rfl
  | crcRead =>
    simp only [exec, execCrcRead]
    split
    · exact .error_of rfl
    · exact .success_of _ (by simp)
  | crcSpan c =>
    simp only [exec, execCrcSpan, crcSpan]
    split
    · exact .error_of rfl
    · exact .success_crc _ _ (by simp) rfl
  | frmBuild n x y => exact execFrmBuild_ends n x y s
  | frmParse => exact execFrmParse_ends s
  | fbLoad => exact execFbLoad_ends s
  | fbRead => exact execFbRead_ends s
  | stRead =>
    simp only [exec, execStRead]
    split
    · exact .error_of rfl
    · exact .kept rfl

/-- A step on a command whose word decodes is the command's meaning. -/
theorem step_of_decode {s : State} {c : Command} {rest : List PortEvent} {i : Instr}
    (h : s.input = .command c :: rest) (hd : decode c.cw = .ok i) : step s = exec i s := by
  simp [step, h, hd]

/-- Everything a step can do. -/
theorem step_cases (s : State) :
    (s.input = [] ∧ step s = .next { s with response := none }) ∨
    (∃ rest, s.input = .reset :: rest ∧ step s = .next { State.reset with input := rest }) ∨
    (∃ c rest i, s.input = .command c :: rest ∧ decode c.cw = .ok i ∧ step s = exec i s) ∨
    (∃ c rest e, s.input = .command c :: rest ∧ (decode c.cw).isOk = false ∧ (e = .opsel ∨ e = .reservedField) ∧
      step s = raise e s) := by
  rcases h : s.input with _ | ⟨c | _, rest⟩
  · exact .inl ⟨rfl, by simp [step, h, idle]⟩
  · cases hd : decode c.cw with
    | ok i => exact .inr (.inr (.inl ⟨c, rest, i, rfl, hd, step_of_decode h hd⟩))
    | error e =>
      refine .inr (.inr (.inr ?_))
      cases e with
      | opsel => exact ⟨c, rest, _, rfl, by rw [hd]; rfl, .inl rfl, by simp [step, h, hd, illegal]⟩
      | reservedField => exact ⟨c, rest, _, rfl, by rw [hd]; rfl, .inr rfl, by simp [step, h, hd, illegal]⟩
      | truncated => exact ⟨c, rest, _, rfl, by rw [hd]; rfl, .inl rfl, by simp [step, h, hd, illegal]⟩
  · exact .inr (.inl ⟨rest, rfl, by simp [step, h, takeReset]⟩)

end Sys2Proof.Machine
end

