-- ==== Sys2Proof/Laws/Meanings.lean ====
section
/-! SUPPORT. The meanings that touch FBUF, at the reference hardware: its checks keep every access inside FBUF, so none of
them faults. -/

namespace Sys2Proof.Machine

theorem memRead_hardware (m : Memory) (a n : Nat) (h : a + n ≤ 129) :
    memRead Config.hardware m a n = some (m.readBytes a n) :=
  memRead_eq_some.mpr ⟨h, rfl⟩

theorem memWrite_hardware (m : Memory) (a : Nat) (v : List Byte) (h : a + v.length ≤ 129) :
    memWrite Config.hardware m a v = some (m.writeBytes a v) :=
  memWrite_eq_some.mpr ⟨h, rfl⟩

/-- A frame padded to the report's length. -/
def paddedFrame (n : Byte) (region : List Byte) : List Byte :=
  frameOf Config.hardware n region ++ zeros (129 - (frameOf Config.hardware n region).length)

theorem length_frameOf (n : Byte) (region : List Byte) :
    (frameOf Config.hardware n region).length = 5 + region.length := by
  simp [frameOf, Config.hardware]
  omega

theorem length_paddedFrame (n : Byte) (region : List Byte) (h : region.length ≤ 124) :
    (paddedFrame n region).length = 129 := by
  simp only [paddedFrame, List.length_append, length_frameOf, length_zeros]
  omega

/-- FRM.BUILD at the reference hardware: neither FRAME_LEN nor a fault occurs. -/
theorem execFrmBuild_eq (n x y : Byte) (s : State) :
    execFrmBuild n x y s =
      if n.toNat > 16 then raise .count s
      else if s.din.length ≠ 9 * n.toNat then raise .dataLen s
      else
        match encodeRecords 0 (descriptorsOf s.din) with
        | .error e => raise e s
        | .ok recs =>
          complete []
            { s with
              crcAcc := frameChecksum Config.hardware n.toNat (x :: y :: n :: recs)
              fbuf := s.fbuf.writeBytes 0 (paddedFrame n (x :: y :: n :: recs)) } := by
  unfold execFrmBuild frmBuild
  simp only [show Config.maxRecords = 16 from rfl]
  split
  · rfl
  · rename_i hn
    rw [if_neg (by simp [Config.recordBytes, Config.hardware]; omega)]
    split
    · rfl
    · rename_i hl
      have hlen := (descriptorsOf_spec n.toNat s.din (by omega)).1
      rcases encodeRecords_cases (descriptorsOf s.din) 0 with ⟨_, ho⟩ | ⟨d, k, e, hk, hc, ho⟩
      · rw [ho]
        dsimp only
        have hfit : (paddedFrame n (x :: y :: n ::
            (descriptorsOf s.din).flatMap fun d => (packRecord d).bytes)).length = 129 :=
          length_paddedFrame _ _ (by simp only [List.length_cons, length_packed]; omega)
        have hw := memWrite_hardware s.fbuf 0 _ (Nat.le_of_eq (by rw [hfit]))
        simp only [paddedFrame] at hw
        rw [show Config.hardware.reportLen = 129 from rfl, hw]
        rfl
      · rw [ho]

/-- FRM.PARSE at the reference hardware: the count's bound keeps the records inside FBUF, so no fault occurs. -/
theorem execFrmParse_eq (s : State) :
    execFrmParse s =
      if s.din.length ≠ 0 then raise .dataLen s
      else if s.fbuf.readBytes 0 3 = Config.hardware.frameOpcode then
        if (s.fbuf.read 7).toNat > 16 then raise .parseCount { s with status := { s.status with mtch := true } }
        else
          match decodeRecords 0 (recordsOf (s.fbuf.readBytes 8 (4 * (s.fbuf.read 7).toNat))) with
          | .error e => raise e { s with status := { s.status with mtch := true } }
          | .ok ds => complete (s.fbuf.read 7 :: ds) { s with status := { s.status with mtch := true } }
      else complete [0#8] { s with status := { s.status with mtch := false } } := by
  unfold execFrmParse frmParse
  split
  · rfl
  · rw [memRead_hardware _ _ _ (by omega)]
    dsimp only
    split
    · unfold parseRecords
      rw [memRead_hardware _ _ _ (by omega), show ∀ m : Memory, m.readBytes 7 1 = [m.read 7] from fun _ => rfl]
      dsimp only
      by_cases hk : (s.fbuf.read 7).toNat > 16
      · rw [if_pos (.inl hk), if_pos hk]
      · rw [if_neg (by simp [Config.maxRecords, Config.recordBytes, Config.hardware]; omega), if_neg hk,
          memRead_hardware _ _ _ (by simp [Config.recordBytes]; omega)]
        rfl
    · rfl

/-- FB.LOAD at the reference hardware. -/
theorem execFbLoad_eq (s : State) :
    execFbLoad s =
      if s.din.length ≠ 129 then raise .dataLen s
      else complete [] { s with fbuf := s.fbuf.writeBytes 0 s.din } := by
  unfold execFbLoad fbLoad
  simp only [show Config.hardware.reportLen = 129 from rfl]
  split
  · rfl
  · rename_i h
    rw [memWrite_hardware _ _ _ (by omega)]

/-- FB.READ at the reference hardware. -/
theorem execFbRead_eq (s : State) :
    execFbRead s =
      if s.din.length ≠ 0 then raise .dataLen s else complete (s.fbuf.readBytes 0 129) s := by
  unfold execFbRead fbRead
  rw [show Config.hardware.reportLen = 129 from rfl, memRead_hardware _ _ _ (by omega)]

end Sys2Proof.Machine
end

