-- ==== Sys2Proof/Laws/PerInstr.lean ====
section
/-! SUPPORT. Statements for all commands, made command by command: the encoding of each is a legal word of the opcode
table. -/

namespace Sys2Proof.Laws.EncodeLegal

/-- The command's word belongs to a row of spec/opcode_table.json (30_encoding.md R63, R64). -/
def Statement (i : Instr) : Prop := legalWord (encode i) = true

theorem qntCh (c : Byte) : Statement (.qntCh c) := (legalWord_commandWord _ _ _ _).mpr (by simp)
theorem qntRgb (r g b : Byte) : Statement (.qntRgb r g b) := (legalWord_commandWord _ _ _ _).mpr (by simp)
theorem qntHex : Statement .qntHex := (legalWord_commandWord _ _ _ _).mpr (by simp)
theorem dqnCh (v : Byte) : Statement (.dqnCh v) := (legalWord_commandWord _ _ _ _).mpr (by simp)
theorem dqnHex (r g b : Byte) : Statement (.dqnHex r g b) := (legalWord_commandWord _ _ _ _).mpr (by simp)
theorem recEnc : Statement .recEnc := (legalWord_commandWord _ _ _ _).mpr (by simp)
theorem recDec : Statement .recDec := (legalWord_commandWord _ _ _ _).mpr (by simp)
theorem crcInit : Statement .crcInit := (legalWord_commandWord _ _ _ _).mpr (by simp)
theorem crcByte (b : Byte) : Statement (.crcByte b) := (legalWord_commandWord _ _ _ _).mpr (by simp)
theorem crcRead : Statement .crcRead := (legalWord_commandWord _ _ _ _).mpr (by simp)
theorem crcSpan (c : Byte) : Statement (.crcSpan c) := (legalWord_commandWord _ _ _ _).mpr (by simp)
theorem frmBuild (n x y : Byte) : Statement (.frmBuild n x y) := (legalWord_commandWord _ _ _ _).mpr (by simp)
theorem frmParse : Statement .frmParse := (legalWord_commandWord _ _ _ _).mpr (by simp)
theorem fbLoad : Statement .fbLoad := (legalWord_commandWord _ _ _ _).mpr (by simp)
theorem fbRead : Statement .fbRead := (legalWord_commandWord _ _ _ _).mpr (by simp)
theorem stRead : Statement .stRead := (legalWord_commandWord _ _ _ _).mpr (by simp)

end Sys2Proof.Laws.EncodeLegal
end

