-- ==== Sys2Proof/Laws/Run.lean ====
section
/-! SUPPORT. Runs of the machine: a run unfolds one step at a time, and never stops. -/

namespace Sys2Proof.Machine

@[simp] theorem run_zero (s : State) : Host.Core.run core 0 s = .next s := rfl

/-- A run goes on from the state a step answers. -/
theorem run_succ {n : Nat} {s t : State} (h : step s = .next t) :
    Host.Core.run core (n + 1) s = Host.Core.run core n t := by
  have h' : core.step s = .next t := h
  simp only [Host.Core.run, h']

/-- A run whose first event is a command that decodes goes on from the state its meaning answers. -/
theorem run_command {n : Nat} {s t : State} {c : Command} {rest : List PortEvent} {i : Instr}
    (h : s.input = .command c :: rest) (hd : decode c.cw = .ok i) (ht : exec i s = .next t) :
    Host.Core.run core (n + 1) s = Host.Core.run core n t :=
  run_succ ((step_of_decode h hd).trans ht)

/-- The meaning of a command answers a next state. -/
theorem exec_next (i : Instr) (s : State) : ∃ t, exec i s = .next t := by
  have h := exec_ends i s
  generalize exec i s = r at h
  cases h <;> exact ⟨_, rfl⟩

/-- The meaning of a command takes it off the port. -/
theorem exec_input {i : Instr} {s t : State} (h : exec i s = .next t) : t.input = s.input.tail := by
  have hE := exec_ends i s
  rw [h] at hE
  generalize hr : (Host.Outcome.next t : Result) = r at hE
  cases hE <;> cases hr <;> rfl

end Sys2Proof.Machine
end

