-- ==== Sys2Proof/Tests/Slice0.lean ====
section
/-! SUPPORT. The model's own tests: the well-formedness checks refuse ill-formed terms, every constructor's word decodes,
each command answers as the vectors of spec/95_test_vectors.md say, and each statement's hypotheses are met. -/

namespace Sys2Proof.Tests

open Sys2Proof Sys2Proof.Machine

/-- The reset state with one command at the port. -/
def port (cw : Word) (din : List Byte) : State := { State.reset with input := [.command ⟨0, cw, din⟩] }

/-- One command at the port of a block whose FBUF holds the bytes, then zeros. -/
def portOn (bytes : List Byte) (cw : Word) (din : List Byte) : State :=
  { port cw din with fbuf := Memory.writeBytes [] 0 bytes }

/-- STATUS, DOUT and CRC_ACC after one step. -/
def after (s : State) : Option (Word × List Byte × Crc) :=
  match step s with
  | .next t => some (t.status.word, t.dout, t.crcAcc)
  | .fault _ => none
  | .refused _ => none

/-- The first `n` bytes of FBUF after one step. -/
def fbufAfter (n : Nat) (s : State) : Option (List Byte) :=
  match step s with
  | .next t => some (t.fbuf.readBytes 0 n)
  | .fault _ => none
  | .refused _ => none

/-- The fixture descriptor F of 95_test_vectors.md. -/
def fixture : Descriptor := ⟨0x01#8, 0x00#8, 0x01#8, ⟨0x07#8, 0x00#8, 0x00#8⟩, ⟨0x00#8, 0x07#8, 0x00#8⟩⟩

/-- The descriptor of V-REC-4: every field at its maximum. -/
def maximal : Descriptor := ⟨0xFF#8, 0x04#8, 0x04#8, ⟨0x07#8, 0x07#8, 0x07#8⟩, ⟨0x07#8, 0x07#8, 0x07#8⟩⟩

/-- The frame of V-FRM-1, unpadded. -/
def fixtureFrame : List Byte :=
  [0x59#8, 0xA5#8, 0x0A#8, 0x53#8, 0xF3#8, 0x00#8, 0x00#8, 0x01#8, 0x01#8, 0x07#8, 0x70#8, 0x04#8]

/-! ### WellFormed: ill-formed terms are refused -/

theorem test_config_report_too_short : Config.wellFormed { reportLen := 7 } = false := by decide
theorem test_config_opcode_too_short : Config.wellFormed { frameOpcode := [0x59#8, 0xA5#8] } = false := by decide
theorem test_config_hardware : Config.hardware.wellFormed = true := by decide
theorem test_illegal_opsel : legalWord 0x00000015#32 = false := by decide
theorem test_illegal_reserved_field : legalWord 0x00010010#32 = false ∧ legalWord 0x01000020#32 = false := by decide
theorem test_legal_words : legalWord 0x0000FF10#32 = true ∧ legalWord 0xFFFFFF40#32 = true := by decide
theorem test_row_covers : OpRow.covers ⟨0x00000010#32, 0xFFFF00FF#32⟩ 0x00008010#32 = true ∧
    OpRow.covers ⟨0x00000010#32, 0xFFFF00FF#32⟩ 0x00010010#32 = false := by decide
theorem test_din_lengths :
    (Instr.qntCh 0#8).acceptsDin Config.hardware [0#8] = false ∧
    Instr.recEnc.acceptsDin Config.hardware (zeros 8) = false ∧
    Instr.recDec.acceptsDin Config.hardware (zeros 5) = false ∧
    (Instr.crcSpan 0#8).acceptsDin Config.hardware (zeros 2) = false ∧
    (Instr.frmBuild 2#8 0#8 0#8).acceptsDin Config.hardware (zeros 9) = false ∧
    Instr.fbLoad.acceptsDin Config.hardware (zeros 128) = false := by decide +kernel
theorem test_descriptor_color_mode : ({ fixture with colorMode := 5#8 } : Descriptor).wellFormed = false := by decide
theorem test_descriptor_led_mode : ({ fixture with ledMode := 5#8 } : Descriptor).wellFormed = false := by decide
theorem test_descriptor_channel : ({ fixture with color2 := ⟨0#8, 0#8, 8#8⟩ } : Descriptor).wellFormed = false := by
  decide
theorem test_rgb_channel : Rgb.quantized ⟨8#8, 0#8, 0#8⟩ = false := by decide
theorem test_descriptor_maximal : maximal.wellFormed = true := by decide
theorem test_memory_unsorted : Memory.wf [(2, 1#8), (1, 1#8)] = false := by decide
theorem test_memory_repeated : Memory.wf [(1, 1#8), (1, 2#8)] = false := by decide
theorem test_memory_lists_zero : Memory.wf [(1, 0#8)] = false := by decide
theorem test_memory_write_zero_unlists : Memory.write [(1, 5#8), (2, 6#8)] 1 0#8 = [(2, 6#8)] := by decide

/-! ### Decode: every constructor, words written out from 30_encoding.md R61 to R63 -/

theorem test_decode_qntCh : decode 0x0000FF10#32 = .ok (.qntCh 0xFF#8) := by rfl
theorem test_decode_qntRgb : decode 0x1280FF11#32 = .ok (.qntRgb 0xFF#8 0x80#8 0x12#8) := by rfl
theorem test_decode_qntHex : decode 0x00000012#32 = .ok .qntHex := by rfl
theorem test_decode_dqnCh : decode 0x00000713#32 = .ok (.dqnCh 0x07#8) := by rfl
theorem test_decode_dqnHex : decode 0x03020114#32 = .ok (.dqnHex 0x01#8 0x02#8 0x03#8) := by rfl
theorem test_decode_recEnc : decode 0x00000020#32 = .ok .recEnc := by rfl
theorem test_decode_recDec : decode 0x00000021#32 = .ok .recDec := by rfl
theorem test_decode_crcInit : decode 0x00000030#32 = .ok .crcInit := by rfl
theorem test_decode_crcByte : decode 0x00003131#32 = .ok (.crcByte 0x31#8) := by rfl
theorem test_decode_crcRead : decode 0x00000032#32 = .ok .crcRead := by rfl
theorem test_decode_crcSpan : decode 0x00000233#32 = .ok (.crcSpan 0x02#8) := by rfl
theorem test_decode_frmBuild : decode 0xCDAB0240#32 = .ok (.frmBuild 0x02#8 0xAB#8 0xCD#8) := by rfl
theorem test_decode_frmParse : decode 0x00000041#32 = .ok .frmParse := by rfl
theorem test_decode_fbLoad : decode 0x00000050#32 = .ok .fbLoad := by rfl
theorem test_decode_fbRead : decode 0x00000051#32 = .ok .fbRead := by rfl
theorem test_decode_stRead : decode 0x00000052#32 = .ok .stRead := by rfl
theorem test_decode_bytes : decodeBytes [0x40#8, 0x02#8, 0xAB#8, 0xCD#8, 0x99#8] =
    .ok (.frmBuild 0x02#8 0xAB#8 0xCD#8, [0x99#8]) := by rfl
theorem test_decode_truncated : decodeBytes [0x12#8, 0x00#8, 0x00#8] = .error .truncated := by rfl
theorem test_table_word : decodeTableWord 32 0xCDAB0240 = some (.frmBuild 0x02#8 0xAB#8 0xCD#8) ∧
    decodeTableWord 8 0x12 = some .qntHex ∧ decodeTableWord 32 0x15 = none := by decide
theorem test_fetch_word : after (State.reset.withFetchWord 32 0x00003131) = some (0x00FF0000#32, [], 0x947E#16) := by
  decide +kernel

/-- V-DEC-1, 2, 8 and 9: OPSEL, also over every field, and RESERVED_FIELD. -/
theorem test_illegal_words :
    after (port 0x00000000#32 []) = some (0x00FF0105#32, [], 0xFFFF#16) ∧
    after (port 0x00000015#32 []) = some (0x00FF0105#32, [], 0xFFFF#16) ∧
    after (port 0xFFFFFFFF#32 []) = some (0x00FF0105#32, [], 0xFFFF#16) ∧
    after (port 0x00010010#32 []) = some (0x00FF0205#32, [], 0xFFFF#16) := by decide +kernel

/-! ### One step of each command, from 95_test_vectors.md -/

/-- V-COL-2, 3, 16 and 18. -/
theorem test_qntCh :
    after (port 0x00001210#32 []) = some (0x00FF0000#32, [0x00#8], 0xFFFF#16) ∧
    after (port 0x00001310#32 []) = some (0x00FF0000#32, [0x01#8], 0xFFFF#16) ∧
    after (port 0x0000FF10#32 []) = some (0x00FF0000#32, [0x07#8], 0xFFFF#16) ∧
    after (port 0x00000010#32 [0#8]) = some (0x00FF0601#32, [], 0xFFFF#16) := by decide +kernel

/-- V-COL-19 and 22. -/
theorem test_qntRgb :
    after (port 0x1280FF11#32 []) = some (0x00FF0000#32, [0x07#8, 0x04#8, 0x00#8], 0xFFFF#16) ∧
    after (port 0x33221111#32 []) = some (0x00FF0000#32, [0x00#8, 0x01#8, 0x01#8], 0xFFFF#16) := by decide +kernel

/-- V-COL-24, 26, 27 and 28: the strings `#FfF`, `#123456`, `#abc` and `7F7F7F`. -/
theorem test_qntHex :
    after (port 0x12#32 [0x23#8, 0x46#8, 0x66#8, 0x46#8]) = some (0x00FF0000#32, [0x07#8, 0x07#8, 0x07#8], 0xFFFF#16) ∧
    after (port 0x12#32 [0x23#8, 0x31#8, 0x32#8, 0x33#8, 0x34#8, 0x35#8, 0x36#8]) =
      some (0x00FF0000#32, [0x00#8, 0x01#8, 0x02#8], 0xFFFF#16) ∧
    after (port 0x12#32 [0x23#8, 0x61#8, 0x62#8, 0x63#8]) = some (0x00FF0000#32, [0x05#8, 0x05#8, 0x06#8], 0xFFFF#16) ∧
    after (port 0x12#32 [0x37#8, 0x46#8, 0x37#8, 0x46#8, 0x37#8, 0x46#8]) =
      some (0x00FF0000#32, [0x03#8, 0x03#8, 0x03#8], 0xFFFF#16) := by decide +kernel

/-- V-COL-30, 31, 33 and 35: the empty string, `#`, `##fff` and `#ggg`. -/
theorem test_qntHex_errors :
    after (port 0x12#32 []) = some (0x00FF0101#32, [], 0xFFFF#16) ∧
    after (port 0x12#32 [0x23#8]) = some (0x00FF0101#32, [], 0xFFFF#16) ∧
    after (port 0x12#32 [0x23#8, 0x23#8, 0x66#8, 0x66#8, 0x66#8]) = some (0x00FF0101#32, [], 0xFFFF#16) ∧
    after (port 0x12#32 [0x23#8, 0x67#8, 0x67#8, 0x67#8]) = some (0x00FF0201#32, [], 0xFFFF#16) := by decide +kernel

/-- V-COL-40, 42 and 46. -/
theorem test_dqnCh :
    after (port 0x00000213#32 []) = some (0x00FF0000#32, [0x49#8], 0xFFFF#16) ∧
    after (port 0x00000413#32 []) = some (0x00FF0000#32, [0x92#8], 0xFFFF#16) ∧
    after (port 0x00000813#32 []) = some (0x00FF0000#32, [0xFF#8], 0xFFFF#16) := by decide +kernel

/-- V-COL-51 and 53. -/
theorem test_dqnHex :
    after (port 0x00040714#32 []) =
      some (0x00FF0000#32, [0x23#8, 0x66#8, 0x66#8, 0x39#8, 0x32#8, 0x30#8, 0x30#8], 0xFFFF#16) ∧
    after (port 0x06050314#32 []) =
      some (0x00FF0000#32, [0x23#8, 0x36#8, 0x64#8, 0x62#8, 0x36#8, 0x64#8, 0x62#8], 0xFFFF#16) := by decide +kernel

/-- V-REC-1, 5, 6 and 10. -/
theorem test_recEnc :
    after (port 0x20#32 fixture.bytes) = some (0x00FF0000#32, [0x01#8, 0x07#8, 0x70#8, 0x04#8], 0xFFFF#16) ∧
    after (port 0x20#32 [0x10#8, 1#8, 2#8, 1#8, 2#8, 3#8, 4#8, 5#8, 6#8]) =
      some (0x00FF0000#32, [0x10#8, 0xD1#8, 0x58#8, 0x2B#8], 0xFFFF#16) ∧
    after (port 0x20#32 [0x2A#8, 2#8, 3#8, 7#8, 0#8, 0#8, 0#8, 0#8, 7#8]) =
      some (0x00FF0000#32, [0x2A#8, 0x07#8, 0x80#8, 0x4F#8], 0xFFFF#16) ∧
    after (port 0x20#32 [7#8, 0#8, 0#8, 0#8, 0#8, 4#8, 0#8, 0#8, 0#8]) =
      some (0x00FF0000#32, [0x07#8, 0x00#8, 0x01#8, 0x00#8], 0xFFFF#16) := by decide +kernel

/-- V-REC-14, 15, 17 and 18. -/
theorem test_recEnc_errors :
    after (port 0x20#32 [1#8, 5#8, 5#8, 0#8, 0#8, 0#8, 0#8, 0#8, 0#8]) = some (0x00FF0301#32, [], 0xFFFF#16) ∧
    after (port 0x20#32 [1#8, 0#8, 5#8, 0#8, 0#8, 0#8, 0#8, 0#8, 0#8]) = some (0x00FF0401#32, [], 0xFFFF#16) ∧
    after (port 0x20#32 [1#8, 0#8, 0#8, 0#8, 0#8, 0#8, 0#8, 0#8, 0xFF#8]) = some (0x00FF0501#32, [], 0xFFFF#16) ∧
    after (port 0x20#32 (zeros 8)) = some (0x00FF0601#32, [], 0xFFFF#16) := by decide +kernel

/-- V-REC-20, 23 and 24. -/
theorem test_recDec :
    after (port 0x21#32 [0x01#8, 0x07#8, 0x70#8, 0x04#8]) = some (0x00FF0000#32, fixture.bytes, 0xFFFF#16) ∧
    after (port 0x21#32 [0xFF#8, 0xFF#8, 0xFF#8, 0x93#8]) = some (0x00FF0000#32, maximal.bytes, 0xFFFF#16) ∧
    after (port 0x21#32 [0x02#8, 0x38#8, 0xFE#8, 0x4F#8]) =
      some (0x00FF0000#32, [2#8, 2#8, 3#8, 0#8, 7#8, 0#8, 7#8, 7#8, 7#8], 0xFFFF#16) := by decide +kernel

/-- V-REC-25, 26, 28 and 29. -/
theorem test_recDec_errors :
    after (port 0x21#32 [1#8, 0#8, 0#8, 0xA0#8]) = some (0x00FF0301#32, [], 0xFFFF#16) ∧
    after (port 0x21#32 [1#8, 0#8, 0#8, 0x14#8]) = some (0x00FF0401#32, [], 0xFFFF#16) ∧
    after (port 0x21#32 [1#8, 0#8, 0#8, 0x9F#8]) = some (0x00FF0401#32, [], 0xFFFF#16) ∧
    after (port 0x21#32 (zeros 5)) = some (0x00FF0601#32, [], 0xFFFF#16) := by decide +kernel

/-- V-CRC-26: CRC.INIT after CRC.BYTE 0x00. -/
theorem test_crcInit :
    after { port 0x30#32 [] with crcAcc := 0x40BF#16 } = some (0x00FF0000#32, [], 0xFFFF#16) := by decide +kernel

/-- V-CRC-15, and the second byte of the program P1. -/
theorem test_crcByte :
    after (port 0x00000131#32 []) = some (0x00FF0000#32, [], 0x807E#16) ∧
    after { port 0x00003231#32 [] with crcAcc := 0x947E#16 } = some (0x00FF0000#32, [], 0xF595#16) := by decide +kernel

/-- The last step of the program P1. -/
theorem test_crcRead :
    after { port 0x32#32 [] with crcAcc := 0x4B37#16 } = some (0x00FF0000#32, [0x37#8, 0x4B#8], 0x4B37#16) := by
  decide +kernel

/-- V-CRC-21, 22 and 25: bytes after the span are ignored; a DIN shorter than the span is DATA_LEN. -/
theorem test_crcSpan :
    after (port 0x00000033#32 [0#8, 0#8, 0#8, 1#8, 2#8, 3#8, 4#8]) =
      some (0x00FF0000#32, [0x71#8, 0xC0#8], 0xC071#16) ∧
    after (port 0x00000133#32 [0#8, 0#8, 1#8, 1#8, 0x07#8, 0x70#8, 4#8]) =
      some (0x00FF0000#32, [0x53#8, 0xF3#8], 0xF353#16) ∧
    after (port 0x00000033#32 [0#8, 0#8]) = some (0x00FF0601#32, [], 0xFFFF#16) := by decide +kernel

/-- V-FRM-1 and V-FRM-3, over a buffer that held other bytes. -/
theorem test_frmBuild :
    after (port 0x00000140#32 fixture.bytes) = some (0x00FF0000#32, [], 0xF353#16) ∧
    fbufAfter 14 (portOn (List.replicate 129 0xEE#8) 0x00000140#32 fixture.bytes) =
      some (fixtureFrame ++ [0x00#8, 0x00#8]) ∧
    fbufAfter 9 (port 0x34120040#32 []) =
      some [0x59#8, 0xA5#8, 0x0A#8, 0xC7#8, 0x05#8, 0x12#8, 0x34#8, 0x00#8, 0x00#8] := by decide +kernel

/-- V-FRM-9, 10 and 11. -/
theorem test_frmBuild_errors :
    after (port 0x00001140#32 []) = some (0x00FF0102#32, [], 0xFFFF#16) ∧
    after (port 0x00000240#32 fixture.bytes) = some (0x00FF0601#32, [], 0xFFFF#16) ∧
    after (port 0x00000240#32 (fixture.bytes ++ [2#8, 0#8, 5#8, 0#8, 0#8, 0#8, 0#8, 0#8, 0#8])) =
      some (0x00010401#32, [], 0xFFFF#16) := by decide +kernel

/-- V-FRM-14, 15 and 22. -/
theorem test_frmParse :
    after (port 0x41#32 []) = some (0x00FF0000#32, [0x00#8], 0xFFFF#16) ∧
    after (portOn fixtureFrame 0x41#32 []) = some (0x00FF0008#32, 0x01#8 :: fixture.bytes, 0xFFFF#16) ∧
    after (portOn [0x59#8, 0xA5#8, 0x0B#8, 0#8, 0#8, 0#8, 0#8, 1#8, 1#8, 7#8, 0x70#8, 4#8] 0x41#32 []) =
      some (0x00FF0000#32, [0x00#8], 0xFFFF#16) := by decide +kernel

/-- V-FRM-19 and 20. -/
theorem test_frmParse_errors :
    after (portOn [0x59#8, 0xA5#8, 0x0A#8, 0#8, 0#8, 0#8, 0#8, 0x11#8] 0x41#32 []) =
      some (0x00FF0709#32, [], 0xFFFF#16) ∧
    after (portOn [0x59#8, 0xA5#8, 0x0A#8, 0#8, 0#8, 0#8, 0#8, 2#8, 1#8, 7#8, 0x70#8, 4#8, 2#8, 0#8, 0#8, 0xA0#8]
        0x41#32 []) = some (0x00010309#32, [], 0xFFFF#16) := by decide +kernel

/-- V-BUF-3, 4 and 5. -/
theorem test_fbLoad :
    fbufAfter 129 (port 0x50#32 (List.replicate 129 0xA7#8)) = some (List.replicate 129 0xA7#8) ∧
    after (port 0x50#32 (zeros 128)) = some (0x00FF0601#32, [], 0xFFFF#16) ∧
    after (port 0x50#32 (zeros 130)) = some (0x00FF0601#32, [], 0xFFFF#16) := by decide +kernel

/-- V-BUF-1 and 2. -/
theorem test_fbRead :
    after (port 0x51#32 []) = some (0x00FF0000#32, zeros 129, 0xFFFF#16) ∧
    after (portOn fixtureFrame 0x51#32 []) = some (0x00FF0000#32, fixtureFrame ++ zeros 117, 0xFFFF#16) := by
  decide +kernel

/-- V-BUF-7, 10 and 12. -/
theorem test_stRead :
    after (port 0x52#32 []) = some (0x00FF0000#32, [0x00#8, 0x00#8, 0xFF#8, 0x00#8], 0xFFFF#16) ∧
    after { port 0x52#32 [] with status := ⟨1#3, false, 4#8, 1#8⟩ } =
      some (0x00010401#32, [0x01#8, 0x04#8, 0x01#8, 0x00#8], 0xFFFF#16) ∧
    after (port 0x52#32 [0#8]) = some (0x00FF0601#32, [], 0xFFFF#16) := by decide +kernel

/-! ### The statements' hypotheses are met: one witness for each statement that has any -/

/-- A descriptor illegal in its color mode, in its LED mode, in a channel: each the least value that is. -/
def badColorMode : Descriptor := { fixture with colorMode := 5#8 }
/-- See `badColorMode`. -/
def badLedMode : Descriptor := { fixture with ledMode := 5#8 }
/-- See `badColorMode`. -/
def badChannel : Descriptor := { fixture with color2 := ⟨0#8, 0#8, 8#8⟩ }

/-- A buffer with the opcode, count 16 and records `00 00 00 00`. -/
def sixteenZeros : List Byte := [0x59#8, 0xA5#8, 0x0A#8, 0#8, 0#8, 0#8, 0#8, 0x10#8]

theorem reset_inv (cw : Word) (din : List Byte) : (port cw din).Inv := ⟨rfl, rfl, rfl, rfl⟩

theorem witness_EveryStepKeepsTheInvariant :
    (port 0x00000140#32 fixture.bytes).Inv ∧ ∃ t, step (port 0x00000140#32 fixture.bytes) = .next t :=
  ⟨reset_inv _ _, exec_next (.frmBuild 1#8 0#8 0#8) _⟩

theorem witness_ResetRequestRestoresEveryItemOfState :
    ∃ s : State, ∃ rest, s.input = .reset :: rest ∧ s.crcAcc ≠ 0xFFFF#16 :=
  ⟨{ State.reset with crcAcc := 0#16, input := [.reset] }, [], rfl, by decide⟩

theorem witness_WaitingBlockKeepsItsState : State.reset.input = [] := rfl

/-- A waiting block that has just answered a command, and one that takes a reset: no command is at the head. -/
theorem witness_NoStepKeepsAResponseOrACommand :
    (∃ t, step { State.reset with response := some ⟨0, 0#32, [1#8]⟩ } = .next t) ∧
    (∀ c rest, { State.reset with response := some ⟨0, 0#32, [1#8]⟩ }.input ≠ .command c :: rest) ∧
    (∃ t, step { State.reset with input := [.reset, .command ⟨0, 0#32, []⟩] } = .next t) ∧
    ∀ c rest, { State.reset with input := [.reset, .command ⟨0, 0#32, []⟩] }.input ≠ .command c :: rest :=
  ⟨⟨_, rfl⟩, nofun, ⟨_, rfl⟩, nofun⟩

theorem witness_StepRunsTheDecodedCommand :
    (port 0x00000031#32 []).input = .command ⟨0, 0x00000031#32, []⟩ :: [] ∧
      decode 0x00000031#32 = .ok (.crcByte 0#8) := ⟨rfl, rfl⟩

/-- Undefined op-selects next to defined ones, and the ends of the range. -/
theorem witness_UndefinedOpselRaisesOpsel : ∀ op ∈ [0x00, 0x0F, 0x15, 0x1F, 0x22, 0x2F, 0x34, 0x3F, 0x42, 0x4F, 0x53, 0xFF],
    op ∉ [0x10, 0x11, 0x12, 0x13, 0x14, 0x20, 0x21, 0x30, 0x31, 0x32, 0x33, 0x40, 0x41, 0x50, 0x51, 0x52] ∧
      (port (BitVec.ofNat 32 op) []).input = .command ⟨0, BitVec.ofNat 32 op, []⟩ :: [] ∧
      (BitVec.ofNat 32 op).toNat % 256 = op := by decide

/-- The least non-zero A for a row that marks A, and the least non-zero B and C for a row that marks B and C. The words
also meet `raisesReservedField`, which the statements of the single commands use. -/
theorem witness_NonzeroReservedFieldRaisesReservedField :
    (0x00000112 % 256 ∈ [0x12, 0x20, 0x21, 0x30, 0x32, 0x41, 0x50, 0x51, 0x52] ∧ 0x00000112 / 256 ≠ 0) ∧
    (0x00010010 % 256 ∈ [0x10, 0x13, 0x31, 0x33] ∧ 0x00010010 / 65536 ≠ 0) ∧
    (0x0100FF33 % 256 ∈ [0x10, 0x13, 0x31, 0x33] ∧ 0x0100FF33 / 65536 ≠ 0) ∧
    (port 0x00010010#32 []).input = .command ⟨0, 0x00010010#32, []⟩ :: [] := by decide

theorem witness_DecodeAcceptsExactlyTheTable :
    legalWord 0x0000FF33#32 = true ∧ decode 0x0000FF33#32 = .ok (.crcSpan 0xFF#8) := ⟨by decide, rfl⟩

theorem witness_ResponseGoesToTheIssuingHost :
    ∃ s : State, s.input = .command ⟨7, 0x00000030#32, []⟩ :: [.reset] :=
  ⟨{ State.reset with input := [.command ⟨7, 0x00000030#32, []⟩, .reset] }, rfl⟩

/-- A FRM.PARSE that fails, and a CRC.INIT that does: both clauses on MATCH. -/
theorem witness_FailedCommandWritesOnlyStatus :
    (∃ t, step (port 0x00000041#32 [0#8]) = .next t ∧ decode 0x00000041#32 ≠ .ok .stRead ∧ t.status.err ≠ 0#3) ∧
    (∃ t, step (port 0x00000030#32 [0#8]) = .next t ∧ decode 0x00000030#32 ≠ .ok .stRead ∧
      decode 0x00000030#32 ≠ .ok .frmParse ∧ t.status.err ≠ 0#3) :=
  ⟨⟨_, rfl, nofun, by decide⟩, ⟨_, rfl, nofun, nofun, by decide⟩⟩

theorem witness_OnlyParseWritesMatch : Instr.fbLoad ≠ .frmParse ∧ ∃ t, exec .fbLoad (port 0x50#32 []) = .next t :=
  ⟨nofun, exec_next _ _⟩

theorem witness_OnlyTheListedCommandsWriteTheBlock :
    writesCrc .fbLoad = false ∧ writesFbuf (.crcByte 1#8) = false ∧
      (∃ t, exec .fbLoad (port 0x50#32 (zeros 129)) = .next t) ∧ ∃ t, exec (.crcByte 1#8) (port 0x131#32 []) = .next t :=
  ⟨rfl, rfl, exec_next _ _, exec_next _ _⟩

theorem witness_NoCommandIsSteeredByStatus : Instr.fbRead ≠ .stRead := nofun

theorem witness_OnlyTheListedCommandsReadTheBlock :
    readsCrc (.frmBuild 1#8 0#8 0#8) = false ∧ readsFbuf (.frmBuild 1#8 0#8 0#8) = false := ⟨rfl, rfl⟩

theorem witness_ColourAndRecordCommandsArePure :
    (port 0x20#32 fixture.bytes).din =
      State.din { port 0x20#32 fixture.bytes with crcAcc := 0#16, fbuf := [(3, 7#8)] } := rfl

/-- One DIN byte too many; and for FRM.BUILD the largest count that passes the capacity check. -/
theorem witness_WrongDinLengthRaisesDataLen :
    (Instr.qntCh 0#8).acceptsDin Config.hardware (port 0x10#32 [0#8]).din = false ∧
    (∀ n x y, Instr.qntCh 0#8 = .frmBuild n x y → n.toNat ≤ 16) ∧
    (Instr.frmBuild 16#8 0#8 0#8).acceptsDin Config.hardware (port 0x1040#32 (zeros 143)).din = false ∧
    (16#8 : Byte).toNat ≤ 16 := ⟨rfl, nofun, by decide +kernel, by decide⟩

/-- A read of CRC_ACC and an illegal word keep to the first two clauses. -/
theorem witness_OnlyInterferingCommandsDisturbASequence :
    (∃ t, Host.Core.run core 2 (State.reset.withCommands [⟨1, 0x00000032#32, []⟩, ⟨2, 0x00000015#32, []⟩]) = .next t) ∧
    ∀ e ∈ (State.reset.withCommands [⟨1, 0x00000032#32, []⟩, ⟨2, 0x00000015#32, []⟩]).input.take 2,
      ∃ c, e = .command c ∧ ∀ i, decode c.cw = .ok i → writesCrc i = false ∧ writesFbuf i = false := by
  refine ⟨⟨_, rfl⟩, fun e he => ?_⟩
  rcases List.mem_cons.mp he with rfl | he
  · refine ⟨_, rfl, fun i hi => ?_⟩
    have : (.ok .crcRead : Except DecodeError Instr) = .ok i := hi
    cases this
    exact ⟨rfl, rfl⟩
  · rcases List.mem_cons.mp he with rfl | he
    · refine ⟨_, rfl, fun i hi => ?_⟩
      have : (.error .opsel : Except DecodeError Instr) = .ok i := hi
      cases this
    · exact nomatch he

/-- Two ST.READ commands of two hosts keep to the last clause, after a command that failed. -/
theorem witness_OnlyInterferingCommandsDisturbASequence_status :
    (∃ t, Host.Core.run core 2 ({ State.reset with status := ⟨1#3, false, 4#8, 1#8⟩ }.withCommands
      [issue 1 .stRead [], issue 2 .stRead []]) = .next t) ∧
    ∀ e ∈ ({ State.reset with status := ⟨1#3, false, 4#8, 1#8⟩ }.withCommands
      [issue 1 .stRead [], issue 2 .stRead []]).input.take 2,
      ∃ c, e = .command c ∧ decode c.cw = .ok .stRead ∧ c.din = [] := by
  refine ⟨⟨_, rfl⟩, fun e he => ?_⟩
  rcases List.mem_cons.mp he with rfl | he
  · exact ⟨_, rfl, rfl, rfl⟩
  · rcases List.mem_cons.mp he with rfl | he
    · exact ⟨_, rfl, rfl, rfl⟩
    · exact nomatch he

/-- An empty and a non-empty DIN: the two clauses of QNT.CH, QNT.RGB, DQN.CH, DQN.HEX, CRC.INIT, CRC.BYTE, CRC.READ,
FB.READ and ST.READ. -/
theorem witness_emptyDin : (port 0x00000010#32 []).din = [] ∧ (port 0x00000010#32 [0#8]).din ≠ [] := by decide

/-- The ends of the three ranges of hex digits. -/
theorem witness_hexValues : HexValue 0x30#8 0 ∧ HexValue 0x39#8 9 ∧ HexValue 0x41#8 10 ∧ HexValue 0x46#8 15 ∧
    HexValue 0x61#8 10 ∧ HexValue 0x66#8 15 := by simp [HexValue]

/-- A 3-digit string with a leading `#`, and a 6-digit string without. -/
theorem witness_QntHexQuantizesAColourString :
    (port 0x12#32 [0x23#8, 0x30#8, 0x39#8, 0x41#8]).din = [0x23#8] ++ [0x30#8, 0x39#8, 0x41#8] ∧
    (port 0x12#32 [0x30#8, 0x39#8, 0x41#8, 0x46#8, 0x61#8, 0x66#8]).din =
      [] ++ [0x30#8, 0x39#8, 0x41#8, 0x46#8, 0x61#8, 0x66#8] := ⟨rfl, rfl⟩

/-- Lengths next to 3 and 6 after the `#`; and the bytes next to the ranges of hex digits, in strings of 3 and 6. -/
theorem witness_QntHexRejectsMalformedStrings :
    (port 0x12#32 [0x23#8, 0x30#8, 0x30#8]).din = 0x23#8 :: [0x30#8, 0x30#8] ∧
    ((port 0x12#32 (zeros 7)).din = zeros 7 ∧ (zeros 7).head? ≠ some 0x23#8) ∧
    ([0x30#8, 0x30#8] : List Byte).length ≠ 3 ∧ (zeros 7).length ≠ 6 ∧
    ∀ c ∈ ([0x2F#8, 0x3A#8, 0x40#8, 0x47#8, 0x60#8, 0x67#8] : List Byte), ∀ v, ¬HexValue c v := by
  refine ⟨rfl, ⟨rfl, by decide⟩, by decide, by decide, fun c hc v hv => ?_⟩
  simp only [List.mem_cons, List.not_mem_nil, or_false] at hc
  rcases hc with rfl | rfl | rfl | rfl | rfl | rfl <;> simp only [HexValue, BitVec.toNat_ofNat] at hv <;> omega

theorem witness_QuantizersRoundToNearest : (7#8 : Byte).toNat ≤ 7 ∧ (0#8 : Byte).toNat ≤ 7 := by decide

/-- QNT.HEX of `fff`, DQN.HEX of what it gives, and QNT.HEX of what that gives. -/
theorem witness_RequantizingARenderedColourIsStable :
    ∃ t u' w', exec .qntHex (port 0x12#32 [0x66#8, 0x66#8, 0x66#8]) = .next t ∧ t.status.err = 0#3 ∧
      t.dout = [7#8, 7#8, 7#8] ∧ exec (.dqnHex 7#8 7#8 7#8) (port 0x07070714#32 []) = .next u' ∧
      (port 0x12#32 u'.dout).din = u'.dout ∧ exec .qntHex (port 0x12#32 u'.dout) = .next w' :=
  ⟨_, _, _, rfl, rfl, rfl, rfl, rfl, rfl⟩

/-- Every clause of REC.ENC at the ends of the ranges: modes 4 and 5, channels 7 and 8, and DINs of 8 and 10 bytes. -/
theorem witness_RecEncPacksADescriptor :
    ((port 0x20#32 maximal.bytes).din = maximal.bytes ∧ maximal.wellFormed = true) ∧
    badColorMode.colorMode.toNat > 4 ∧ (badLedMode.colorMode.toNat ≤ 4 ∧ badLedMode.ledMode.toNat > 4) ∧
    (badChannel.colorMode.toNat ≤ 4 ∧ badChannel.ledMode.toNat ≤ 4 ∧ badChannel.wellFormed = false) ∧
    (port 0x20#32 (zeros 8)).din.length ≠ 9 ∧ (port 0x20#32 (zeros 10)).din.length ≠ 9 := by decide

/-- Every clause of REC.DEC at the ends of the ranges: byte 3 is `93`, `A0` and `94`, and DINs of 3 and 5 bytes. -/
theorem witness_RecDecUnpacksARecord :
    (port 0x21#32 [0xFF#8, 0xFF#8, 0xFF#8, 0x93#8]).din = Record.bytes ⟨0xFF#8, 0xFF#8, 0xFF#8, 0x93#8⟩ ∧
    ((0x93#8 : Byte).toNat / 32 ≤ 4 ∧ (0x93#8 : Byte).toNat / 4 % 8 ≤ 4) ∧ (0xA0#8 : Byte).toNat / 32 > 4 ∧
    ((0x94#8 : Byte).toNat / 32 ≤ 4 ∧ (0x94#8 : Byte).toNat / 4 % 8 > 4) ∧
    (port 0x21#32 (zeros 3)).din.length ≠ 4 ∧ (port 0x21#32 (zeros 5)).din.length ≠ 4 := by decide

theorem witness_RecordCodecRoundTrips :
    (∃ t, maximal.wellFormed = true ∧ exec .recEnc (port 0x20#32 maximal.bytes) = .next t ∧
      (port 0x21#32 t.dout).din = t.dout) ∧
    ∃ t, exec .recDec (port 0x21#32 (Record.bytes ⟨0xFF#8, 0xFF#8, 0xFF#8, 0x93#8⟩)) = .next t ∧
      t.status.err = 0#3 ∧ (port 0x20#32 t.dout).din = t.dout :=
  ⟨⟨_, rfl, rfl, rfl⟩, ⟨_, rfl, rfl, rfl⟩⟩

theorem witness_ModeOrdinalsAreZeroToFour : maximal.color1.quantized = true ∧ maximal.color2.quantized = true := by
  decide

/-- The span of a count 0, exactly, and one byte less; the span of the largest count. -/
theorem witness_CrcSpanChecksumsTheSpan :
    (port 0x33#32 (zeros 3)).din = zeros 3 ++ [] ∧ (zeros 3).length = 3 * ((0#8 : Byte).toNat + 1) ∧
    (port 0x33#32 (zeros 2)).din.length < 3 * ((0#8 : Byte).toNat + 1) ∧
    (zeros 768).length = 3 * ((255#8 : Byte).toNat + 1) := by decide +kernel

theorem witness_ChecksumDetectsAnyChangedByte :
    (0x00#8 : Byte) ≠ 0x01#8 ∧ 3 * (0 + 1) ≤ (zeros 3).length := by decide

/-- No descriptor, and sixteen. -/
theorem witness_FrmBuildWritesThePaddedFrame :
    (port 0x40#32 []).fbuf.wf = true ∧ (port 0x40#32 []).din = ([] : List Descriptor).flatMap Descriptor.bytes ∧
    (List.replicate 16 maximal).length ≤ 16 ∧ (∀ d ∈ List.replicate 16 maximal, d.wellFormed = true) ∧
    (port 0x1040#32 ((List.replicate 16 maximal).flatMap Descriptor.bytes)).din =
      (List.replicate 16 maximal).flatMap Descriptor.bytes :=
  ⟨rfl, rfl, by decide, by decide, rfl⟩

/-- Count 17; counts 0 and 16 with a DIN of another length; and each bad descriptor as the last of sixteen. -/
theorem witness_FrmBuildReportsTheFirstError :
    (17#8 : Byte).toNat > 16 ∧
    ((16#8 : Byte).toNat ≤ 16 ∧ (port 0x1040#32 (zeros 143)).din.length ≠ 9 * (16#8 : Byte).toNat) ∧
    ((0#8 : Byte).toNat ≤ 16 ∧ (port 0x40#32 (zeros 1)).din.length ≠ 9 * (0#8 : Byte).toNat) ∧
    (List.replicate 15 fixture).length + 1 + ([] : List Descriptor).length = (16#8 : Byte).toNat ∧
    (∀ g ∈ List.replicate 15 fixture, g.wellFormed = true) ∧
    (port 0x1040#32 ((List.replicate 15 fixture ++ badChannel :: []).flatMap Descriptor.bytes)).din =
      (List.replicate 15 fixture ++ badChannel :: []).flatMap Descriptor.bytes ∧
    badColorMode.colorMode.toNat > 4 ∧ (badLedMode.colorMode.toNat ≤ 4 ∧ badLedMode.ledMode.toNat > 4) ∧
    (badChannel.colorMode.toNat ≤ 4 ∧ badChannel.ledMode.toNat ≤ 4 ∧ badChannel.wellFormed = false) :=
  ⟨by decide, ⟨by decide, by decide +kernel⟩, ⟨by decide, by decide⟩, rfl, by decide, rfl, by decide, by decide,
    by decide⟩

/-- The least frame in a report one byte shorter, and the largest frame in the hardware's report. -/
theorem witness_FrameThatDoesNotFitRaisesFrameLen :
    ((0#8 : Byte).toNat ≤ 16 ∧ 8 + 4 * (0#8 : Byte).toNat > ({ reportLen := 7 } : Config).reportLen) ∧
    (16#8 : Byte).toNat ≤ 16 := by decide

/-- The frame of V-FRM-1, and sixteen records. -/
theorem witness_FrmParseReturnsTheRecords :
    ((portOn fixtureFrame 0x41#32 []).din = [] ∧ holdsOpcode (portOn fixtureFrame 0x41#32 []).fbuf = true ∧
      ((portOn fixtureFrame 0x41#32 []).fbuf.read 7).toNat = 1 ∧
      (descriptorValue (recordAt (portOn fixtureFrame 0x41#32 []).fbuf 0)).wellFormed = true) ∧
    holdsOpcode (portOn sixteenZeros 0x41#32 []).fbuf = true ∧
      ((portOn sixteenZeros 0x41#32 []).fbuf.read 7).toNat = 16 ∧
      ∀ i < 16, (descriptorValue (recordAt (portOn sixteenZeros 0x41#32 []).fbuf i)).wellFormed = true := by
  decide +kernel

theorem witness_OpcodeMismatchIsNotAnError :
    (port 0x41#32 []).din = [] ∧ holdsOpcode (port 0x41#32 []).fbuf = false ∧
    holdsOpcode (portOn [0x59#8, 0xA5#8, 0x0B#8] 0x41#32 []).fbuf = false := by decide +kernel

/-- A DIN byte; a count of 17; V-FRM-20, whose record 1 has color mode 5; and the same with LED mode 5. -/
theorem witness_FrmParseReportsTheFirstError :
    (port 0x41#32 [0#8]).din ≠ [] ∧
    (let m := (portOn [0x59#8, 0xA5#8, 0x0A#8, 0#8, 0#8, 0#8, 0#8, 0x11#8] 0x41#32 []).fbuf;
      holdsOpcode m = true ∧ (m.read 7).toNat > 16) ∧
    (let m := (portOn (fixtureFrame.set 7 2#8 ++ [2#8, 0#8, 0#8, 0xA0#8]) 0x41#32 []).fbuf;
      holdsOpcode m = true ∧ 1 < (m.read 7).toNat ∧ (m.read 7).toNat ≤ 16 ∧
      (∀ j < 1, (descriptorValue (recordAt m j)).wellFormed = true) ∧ (recordAt m 1).byte3.toNat / 32 > 4) ∧
    (let m := (portOn (fixtureFrame.set 7 2#8 ++ [2#8, 0#8, 0#8, 0x14#8]) 0x41#32 []).fbuf;
      holdsOpcode m = true ∧ 1 < (m.read 7).toNat ∧ (m.read 7).toNat ≤ 16 ∧
      (∀ j < 1, (descriptorValue (recordAt m j)).wellFormed = true) ∧ (recordAt m 1).byte3.toNat / 32 ≤ 4 ∧
      (recordAt m 1).byte3.toNat / 4 % 8 > 4) := by decide +kernel

/-- The least report with the hardware's opcode and a count of 1: one record runs past it. -/
theorem witness_FrmParseReportsTheFirstError_pastTheReport :
    let s := portOn (fixtureFrame.take 8) 0x41#32 []
    let cfg : Config := { reportLen := 8 }
    cfg.wellFormed = true ∧ s.din = [] ∧ [s.fbuf.read 0, s.fbuf.read 1, s.fbuf.read 2] = cfg.frameOpcode ∧
      (s.fbuf.read 7).toNat ≤ 16 ∧ 8 + 4 * (s.fbuf.read 7).toNat > cfg.reportLen := by decide +kernel

theorem witness_FramedRecordsParseBack :
    State.reset.fbuf.wf = true ∧ (List.replicate 16 maximal).length ≤ 16 ∧
      ∀ d ∈ List.replicate 16 maximal, d.wellFormed = true := by decide

/-- Two frames whose spans differ in one byte: in `led_id`, the first byte after the count, and in the first byte of the
nonce, under the largest count. -/
theorem witness_FrameChecksumCoversTheTruncatedSpan_inside :
    (regionOf 0#8 0#8 [fixture]).take (3 * (1 + 1)) = [0#8, 0#8, 1#8] ++ 0x01#8 :: [0x07#8, 0x70#8] ∧
    (regionOf 0#8 0#8 [{ fixture with ledId := 0x02#8 }]).take (3 * (1 + 1)) =
      [0#8, 0#8, 1#8] ++ 0x02#8 :: [0x07#8, 0x70#8] ∧
    (∀ d ∈ [{ fixture with ledId := 0x02#8 }], d.wellFormed = true) ∧
    (regionOf 0#8 0#8 (List.replicate 16 fixture)).take 51 =
      [] ++ 0#8 :: (0#8 :: 16#8 :: (List.replicate 16 fixture).flatMap recordValue).take 50 ∧
    (regionOf 1#8 0#8 (List.replicate 16 fixture)).take 51 =
      [] ++ 1#8 :: (0#8 :: 16#8 :: (List.replicate 16 fixture).flatMap recordValue).take 50 := by decide +kernel

/-- V-FRM-1 and V-FRM-7: two frames that differ in `color_mode` only. -/
theorem witness_FrameChecksumCoversTheTruncatedSpan :
    (∀ d ∈ [fixture], d.wellFormed = true) ∧ (∀ d ∈ [{ fixture with colorMode := 1#8 }], d.wellFormed = true) ∧
    ([fixture].flatMap recordValue).take 3 = ([{ fixture with colorMode := 1#8 }].flatMap recordValue).take 3 ∧
    (∃ t, exec (.frmBuild 1#8 0#8 0#8) (port 0x140#32 ([fixture].flatMap Descriptor.bytes)) = .next t) ∧
    ∃ t, exec (.frmBuild 1#8 0#8 0#8)
      (port 0x140#32 ([{ fixture with colorMode := 1#8 }].flatMap Descriptor.bytes)) = .next t :=
  ⟨by decide, by decide, by decide, exec_next _ _, exec_next _ _⟩

/-- V-FRM-15 and V-FRM-21: the same records under another checksum and dirty padding. -/
theorem witness_ParseIgnoresChecksumNonceAndPadding :
    let m := (portOn fixtureFrame 0x41#32 []).fbuf
    let m' := Memory.write (Memory.writeBytes m 3 [0xDE#8, 0xAD#8, 0x01#8]) 100 0x55#8
    (∀ a < 3, m'.read a = m.read a) ∧ m'.read 7 = m.read 7 ∧ (m.read 7).toNat = 1 ∧
      ∀ a < 12, 8 ≤ a → m'.read a = m.read a := by decide +kernel

/-- The least report length, with the zero opcode and with the hardware's. -/
theorem witness_ResetBufferMatchesOnlyTheZeroOpcode :
    Config.wellFormed { reportLen := 8, frameOpcode := [0#8, 0#8, 0#8] } = true ∧
    Config.wellFormed { reportLen := 8 } = true := by decide

/-- 129 bytes, and one less and one more. -/
theorem witness_FbLoadStoresTheReport :
    (port 0x50#32 (zeros 129)).fbuf.wf = true ∧ (port 0x50#32 (zeros 129)).din.length = 129 ∧
    (port 0x50#32 (zeros 128)).din.length ≠ 129 ∧ (port 0x50#32 (zeros 130)).din.length ≠ 129 := by decide +kernel

theorem witness_RepeatedBufferWritesAreIdempotent :
    State.reset.fbuf.wf = true ∧ writesFbuf (.frmBuild 0#8 0#8 0#8) = true ∧
    ∃ t u, Host.Core.run core 1 (State.reset.withCommands
        [issue 0 (.frmBuild 0#8 0#8 0#8) [], issue 0 (.frmBuild 0#8 0#8 0#8) []]) = .next t ∧
      Host.Core.run core 2 (State.reset.withCommands
        [issue 0 (.frmBuild 0#8 0#8 0#8) [], issue 0 (.frmBuild 0#8 0#8 0#8) []]) = .next u := by
  refine ⟨rfl, rfl, ?_⟩
  have hin : (State.reset.withCommands [issue 0 (.frmBuild 0#8 0#8 0#8) [], issue 0 (.frmBuild 0#8 0#8 0#8) []]).input =
      .command (issue 0 (.frmBuild 0#8 0#8 0#8) []) :: [.command (issue 0 (.frmBuild 0#8 0#8 0#8) [])] := rfl
  generalize State.reset.withCommands _ = s at hin
  obtain ⟨t, ht⟩ := exec_next (.frmBuild 0#8 0#8 0#8) s
  have hin' : t.input = .command (issue 0 (.frmBuild 0#8 0#8 0#8) []) :: [] := by rw [exec_input ht, hin]; rfl
  obtain ⟨u, hu⟩ := exec_next (.frmBuild 0#8 0#8 0#8) t
  exact ⟨t, u, run_command hin rfl ht, (run_command hin rfl ht).trans (run_command hin' rfl hu)⟩

end Sys2Proof.Tests
end

section
/-! SUPPORT. Two runs of one command on two states (10_state.md R20, R26, R27): a command's DIN and the items it reads
settle how it ends, so states that agree on these end alike. -/

namespace Sys2Proof.Proofs

open Sys2Proof Sys2Proof.Machine

/-- The writes a command can stage, none of which depends on STATUS: a value for CRC_ACC, the bytes of FBUF from offset
0 on, and a value for MATCH. -/
def staged (c : Option Crc) (bytes : List Byte) (k : Option Bool) (s : State) : State :=
  { s with
    crcAcc := c.getD s.crcAcc
    fbuf := s.fbuf.writeBytes 0 bytes
    status := { s.status with mtch := k.getD s.status.mtch } }

/-- The outcomes of the command `i` on `s` and on `s'` are alike: the same error, or a success with the same DOUT, after
the same writes; or `i` is ST.READ and returns the STATUS of either state. -/
inductive EndAlike (i : Instr) (s s' : State) : Result → Result → Prop where
  | error (e : CmdError) (k : Option Bool) :
      EndAlike i s s' (raise e (staged none [] k s)) (raise e (staged none [] k s'))
  | success (c : Option Crc) (bytes : List Byte) (k : Option Bool) (out : List Byte) :
      EndAlike i s s' (complete out (staged c bytes k s)) (complete out (staged c bytes k s'))
  | kept (hs : i = .stRead) :
      EndAlike i s s' (completeKeepStatus (wordToBytes s.status.word) s)
        (completeKeepStatus (wordToBytes s'.status.word) s')

namespace EndAlike

variable {i : Instr} {s s' : State}

/-- The same error, with no write but ERR, CAUSE and INDEX. -/
theorem raised (e : CmdError) : EndAlike i s s' (raise e s) (raise e s') := .error e none

/-- A success with the same DOUT and no write. -/
theorem completed (out : List Byte) : EndAlike i s s' (complete out s) (complete out s') := .success none [] none out

/-- One check that both states decide alike, then the same writes. -/
theorem checked {p : Prop} [Decidable p] (e : CmdError) (c : Option Crc) (bytes : List Byte) (out : List Byte) :
    EndAlike i s s' (if p then raise e s else complete out (staged c bytes none s))
      (if p then raise e s' else complete out (staged c bytes none s')) := by
  split
  · exact raised e
  · exact .success c bytes none out

theorem recEnc (hd : s.din = s'.din) : EndAlike .recEnc s s' (execRecEnc s) (execRecEnc s') := by
  unfold execRecEnc
  rw [hd]
  cases Descriptor.ofBytes s'.din with
  | none => exact raised _
  | some d =>
    dsimp only
    cases checkDescriptor d 0xFF#8 with
    | some e => exact raised e
    | none => exact completed _

theorem recDec (hd : s.din = s'.din) : EndAlike .recDec s s' (execRecDec s) (execRecDec s') := by
  unfold execRecDec
  rw [hd]
  cases Record.ofBytes s'.din with
  | none => exact raised _
  | some r =>
    dsimp only
    cases checkDescriptor (unpackRecord r) 0xFF#8 with
    | some e => exact raised e
    | none => exact completed _

theorem frmBuild (n x y : Byte) (hd : s.din = s'.din) :
    EndAlike (.frmBuild n x y) s s' (execFrmBuild n x y s) (execFrmBuild n x y s') := by
  rw [execFrmBuild_eq, execFrmBuild_eq, hd]
  split
  · exact raised _
  split
  · exact raised _
  cases encodeRecords 0 (descriptorsOf s'.din) with
  | error e => exact raised e
  | ok recs => exact .success (some _) _ none []

theorem frmParse (hd : s.din = s'.din) (hf : s.fbuf = s'.fbuf) :
    EndAlike .frmParse s s' (execFrmParse s) (execFrmParse s') := by
  obtain ⟨c, m, st, p, r⟩ := s
  obtain ⟨c', m', st', p', r'⟩ := s'
  obtain rfl : m = m' := hf
  rw [execFrmParse_eq, execFrmParse_eq, hd]
  dsimp only
  split
  · exact raised _
  split
  · split
    · exact .error _ (some true)
    cases decodeRecords 0 (recordsOf (m.readBytes 8 (4 * (m.read 7).toNat))) with
    | error e => exact .error e (some true)
    | ok ds => exact .success none [] (some true) _
  · exact .success none [] (some false) _

end EndAlike

/-- A command's DIN and the items of R20 it reads settle how it ends. -/
theorem exec_alike (i : Instr) {s s' : State} (hd : s.din = s'.din) (hc : readsCrc i = true → s.crcAcc = s'.crcAcc)
    (hf : readsFbuf i = true → s.fbuf = s'.fbuf) : EndAlike i s s' (exec i s) (exec i s') := by
  cases i with
  | qntCh c => simp only [exec, execQntCh, hd]; exact .checked _ none [] _
  | qntRgb r g b => simp only [exec, execQntRgb, hd]; exact .checked _ none [] _
  | qntHex =>
    simp only [exec, execQntHex, hd]
    cases parseHex s'.din with
    | error e => exact .raised e
    | ok c => exact .completed _
  | dqnCh v => simp only [exec, execDqnCh, hd]; exact .checked _ none [] _
  | dqnHex r g b => simp only [exec, execDqnHex, hd]; exact .checked _ none [] _
  | recEnc => exact .recEnc hd
  | recDec => exact .recDec hd
  | crcInit => simp only [exec, execCrcInit, crcInit, hd]; exact .checked _ (some _) [] _
  | crcByte b => simp only [exec, execCrcByte, crcByte, hd, hc rfl]; exact .checked _ (some _) [] _
  | crcRead => simp only [exec, execCrcRead, hd, hc rfl]; exact .checked _ none [] _
  | crcSpan c => simp only [exec, execCrcSpan, crcSpan, hd]; exact .checked _ (some _) [] _
  | frmBuild n x y => exact .frmBuild n x y hd
  | frmParse => exact .frmParse hd (hf rfl)
  | fbLoad => simp only [exec, execFbLoad_eq, hd]; exact .checked _ none _ _
  | fbRead => simp only [exec, execFbRead_eq, hd, hf rfl]; exact .checked _ none [] _
  | stRead =>
    simp only [exec, execStRead, hd]
    split
    · exact .raised _
    · exact .kept rfl

/-- What the next states of outcomes that are alike have in common: each item that was equal before, and, but for
ST.READ, the error fields and DOUT whatever STATUS was before. -/
structure CommonAfter (i : Instr) (s s' t u : State) : Prop where
  crcAcc : s.crcAcc = s'.crcAcc → t.crcAcc = u.crcAcc
  fbuf : s.fbuf = s'.fbuf → t.fbuf = u.fbuf
  input : s.input = s'.input → t.input = u.input
  status : s.status = s'.status → t.status = u.status
  response : s.status = s'.status → s.host = s'.host → t.response = u.response
  outcome : i ≠ .stRead → t.status.err = u.status.err ∧ t.status.cause = u.status.cause ∧
    t.status.index = u.status.index ∧ t.dout = u.dout

theorem EndAlike.next {i : Instr} {s s' : State} {r r' : Result} (h : EndAlike i s s' r r') :
    ∃ t u, r = .next t ∧ r' = .next u ∧ CommonAfter i s s' t u := by
  cases h with
  | error e k => exact ⟨_, _, rfl, rfl, by constructor <;> simp +contextual [staged, State.dout]⟩
  | success c bytes k out => exact ⟨_, _, rfl, rfl, by constructor <;> simp +contextual [staged, State.dout]⟩
  | kept hs => exact ⟨_, _, rfl, rfl, by constructor <;> simp +contextual [hs]⟩

/-- `exec_alike` as next states and what they have in common. -/
theorem exec_next_alike (i : Instr) {s s' : State} (hd : s.din = s'.din)
    (hc : readsCrc i = true → s.crcAcc = s'.crcAcc) (hf : readsFbuf i = true → s.fbuf = s'.fbuf) :
    ∃ t u, exec i s = .next t ∧ exec i s' = .next u ∧ CommonAfter i s s' t u :=
  (exec_alike i hd hc hf).next

/-! What one command and one step do to each item of the state. -/

/-- No command reads the response of the step before. -/
theorem exec_response (i : Instr) (s : State) (r : Option Response) : exec i { s with response := r } = exec i s := by
  cases i <;> rfl

theorem illegal_response (e : DecodeError) (s : State) (r : Option Response) :
    illegal e { s with response := r } = illegal e s := by
  cases e <;> rfl

theorem step_response (s : State) (r : Option Response) : step { s with response := r } = step s := by
  obtain ⟨c, m, st, p, r₀⟩ := s
  match p with
  | [] => rfl
  | .reset :: _ => rfl
  | .command c :: _ =>
    simp only [step]
    cases decode c.cw with
    | ok i => exact exec_response i ⟨_, m, st, _, r₀⟩ r
    | error e => exact illegal_response e ⟨_, m, st, _, r₀⟩ r

/-- What a command leaves unchanged of CRC_ACC and FBUF. -/
theorem exec_frame {i : Instr} {s t : State} (h : exec i s = .next t) :
    (writesCrc i = false → t.crcAcc = s.crcAcc) ∧ (writesFbuf i = false → t.fbuf = s.fbuf) := by
  have hE := exec_ends i s
  rw [h] at hE
  generalize hr : (Host.Outcome.next t : Result) = r at hE
  cases hE with
  | error e k => cases hr; exact ⟨fun _ => rfl, fun _ => rfl⟩
  | success c m k out hs hc hm => cases hr; exact ⟨hc, hm⟩
  | kept => cases hr; exact ⟨fun _ => rfl, fun _ => rfl⟩

/-- A step takes one event off the port, if one stands there. -/
theorem step_input {s t : State} (h : step s = .next t) : t.input = s.input.tail := by
  rcases step_cases s with ⟨hi, hs⟩ | ⟨_, hi, hs⟩ | ⟨_, _, _, -, -, hs⟩ | ⟨_, _, _, -, -, -, hs⟩
  · cases hs.symm.trans h
    simp [hi]
  · cases hs.symm.trans h
    simp [hi]
  · exact exec_input (hs.symm.trans h)
  · cases hs.symm.trans h
    rfl

/-- A reset or a wait leaves no response. -/
theorem step_leaves_no_response {s t : State} (h : step s = .next t) (hc : ∀ c rest, s.input ≠ .command c :: rest) :
    t.response = none := by
  rcases step_cases s with ⟨-, hs⟩ | ⟨_, -, hs⟩ | ⟨c, rest, _, hi, -⟩ | ⟨c, rest, _, hi, -⟩
  · cases hs.symm.trans h
    rfl
  · cases hs.symm.trans h
    rfl
  · exact absurd hi (hc c rest)
  · exact absurd hi (hc c rest)

theorem step_of_empty {s : State} (h : s.input = []) : step s = .next { s with response := none } := by
  simp [step, h, idle]

/-! FBUF and STATUS as the host reads them. -/

/-- FBUF after reset reads as zeros. -/
theorem readBytes_nil (a n : Nat) : Memory.readBytes [] a n = zeros n := by
  induction n generalizing a with
  | zero => rfl
  | succ n ih => simp [Memory.readBytes, Memory.read, ih, zeros, List.replicate_succ]

theorem memRead_nil {cfg : Config} {a n : Nat} (h : a + n ≤ cfg.reportLen) : memRead cfg [] a n = some (zeros n) :=
  memRead_eq_some.mpr ⟨h, readBytes_nil a n⟩

/-- On an FBUF of zeros FRM.PARSE finds the count 0 and no records. -/
theorem parseRecords_of_empty {cfg : Config} {s : State} (hl : 8 ≤ cfg.reportLen) (hf : s.fbuf = []) :
    parseRecords cfg s = complete [0#8] s := by
  simp [parseRecords, hf, memRead_nil (a := 7) (n := 1) hl, memRead_nil (a := 8) (n := 0) hl, zeros, recordsOf,
    decodeRecords, Config.maxRecords, Config.recordBytes, hl]

/-- FRM.PARSE on an FBUF of zeros: DOUT is the count 0 whether the opcode matches or not. -/
theorem frmParse_of_empty {cfg : Config} {s : State} (hl : 8 ≤ cfg.reportLen) (hd : s.din = []) (hf : s.fbuf = []) :
    frmParse cfg s =
      complete [0#8] { s with status := { s.status with mtch := decide (cfg.frameOpcode = zeros 3) } } := by
  have hread : memRead cfg s.fbuf 0 3 = some (zeros 3) := by rw [hf, memRead_nil (by omega)]
  unfold frmParse
  simp only [hd, hread, List.length_nil, ne_eq, not_true_eq_false, if_false]
  by_cases ho : zeros 3 = cfg.frameOpcode
  · rw [if_pos ho, decide_eq_true ho.symm]
    exact parseRecords_of_empty hl hf
  · rw [if_neg ho, decide_eq_false (Ne.symm ho)]

/-- The field of the STATUS word at bit `lo`, by arithmetic on the sum of the fields. -/
theorem word_field {st : Status} {lo n : Nat} {v : BitVec n}
    (h : (st.err.toNat + (if st.mtch then 8 else 0) + 256 * st.cause.toNat + 65536 * st.index.toNat) / 2 ^ lo % 2 ^ n =
      v.toNat) :
    st.word.extractLsb' lo n = v := by
  apply BitVec.eq_of_toNat_eq
  rw [BitVec.extractLsb'_toNat, word_toNat, Nat.shiftRight_eq_div_pow, h]

/-- MATCH is bit 3 of the STATUS word: only the fields from bit 8 on and ERR, below 8, stand beside it in the sum. -/
theorem word_mtch (st : Status) : st.word.getLsbD 3 = st.mtch := by
  have herr := st.err.isLt
  rw [BitVec.getLsbD, word_toNat, Nat.testBit_eq_decide_div_mod_eq]
  cases st.mtch with
  | false => simp; omega
  | true => simp; omega

/-! The statements. -/

/-- Settles O6: a step reads no response, takes one event, and answers with a response only to a command. -/
theorem noStepKeepsAResponseOrACommand : Obligations.NoStepKeepsAResponseOrACommand :=
  ⟨step_response, fun _ _ => step_input, fun _ _ => step_leaves_no_response⟩

/-- Settles O19, by the inversion of `exec`. -/
theorem onlyTheListedCommandsWriteTheBlock : Obligations.OnlyTheListedCommandsWriteTheBlock :=
  fun _ _ _ h => ⟨(exec_frame h).1, fun hw a => by rw [(exec_frame h).2 hw]⟩

/-- Settles O20: states that differ in STATUS and the last response have DIN, CRC_ACC and FBUF in common. -/
theorem noCommandIsSteeredByStatus : Obligations.NoCommandIsSteeredByStatus := by
  intro i s st r
  obtain ⟨t, u, ht, hu, h⟩ := exec_next_alike i (s := s) (s' := { s with status := st, response := r }) rfl
    (fun _ => rfl) (fun _ => rfl)
  exact ⟨t, u, ht, hu, h.crcAcc rfl, h.fbuf rfl, h.input rfl, h.outcome⟩

/-- Settles O21: a command that does not read the varied item ends alike on both states. -/
theorem onlyTheListedCommandsReadTheBlock : Obligations.OnlyTheListedCommandsReadTheBlock := by
  refine fun i s => ⟨fun hc v => ?_, fun hf m => ?_⟩
  · obtain ⟨t, u, ht, hu, h⟩ := exec_next_alike i (s := s) (s' := { s with crcAcc := v }) rfl
      (by simp [hc]) (fun _ => rfl)
    exact ⟨t, u, ht, hu, h.status rfl, h.response rfl rfl, h.fbuf rfl⟩
  · obtain ⟨t, u, ht, hu, h⟩ := exec_next_alike i (s := s) (s' := { s with fbuf := m }) rfl
      (fun _ => rfl) (by simp [hf])
    exact ⟨t, u, ht, hu, h.status rfl, h.response rfl rfl, h.crcAcc rfl⟩

/-- Settles O1, by evaluation of the reset state. -/
theorem resetLeavesTheValuesOfTheTable : Obligations.ResetLeavesTheValuesOfTheTable :=
  ⟨rfl, fun _ => rfl, rfl, rfl, rfl, rfl, by decide⟩

/-- Settles O5. -/
theorem waitingBlockKeepsItsState : Obligations.WaitingBlockKeepsItsState :=
  fun _ h => ⟨_, step_of_empty h, rfl, rfl, rfl, h, rfl⟩

/-- Settles O14: each field is the STATUS word divided by its position, modulo its size. -/
theorem statusWordHasTheLayoutOfTheTable : Obligations.StatusWordHasTheLayoutOfTheTable := by
  intro st
  have herr := st.err.isLt
  have hcause := st.cause.isLt
  have hindex := st.index.isLt
  exact ⟨word_field (by split <;> omega), word_mtch st, word_field (by split <;> simp <;> omega),
    word_field (by split <;> omega), word_field (by split <;> omega), word_field (by split <;> simp <;> omega)⟩

/-- Settles O54: FBUF after reset is all zero, and so is the count at offset 7. -/
theorem resetBufferMatchesOnlyTheZeroOpcode : Obligations.ResetBufferMatchesOnlyTheZeroOpcode := by
  intro cfg host hwf
  have hl : 8 ≤ cfg.reportLen := by
    simp only [Config.wellFormed, Bool.and_eq_true, decide_eq_true_eq] at hwf
    exact hwf.1
  exact ⟨_, frmParse_of_empty hl rfl rfl, rfl, rfl, decide_eq_true_iff⟩

end Sys2Proof.Proofs
end

section
/-! SUPPORT. A command given twice (20_memory.md R46): one that reads neither CRC_ACC nor FBUF stages the same writes
both times, and writing the same values again changes nothing. -/

namespace Sys2Proof.Proofs

open Sys2Proof Sys2Proof.Machine

/-- The decoder reads a command back from its word. -/
theorem decode_encode (i : Instr) : decode (encode i) = .ok i := by
  cases i <;> simp [encode, decode, takesABC, takesA, takesNoField]

/-- Writing the same bytes at the same offset again leaves a canonical memory as it is. -/
theorem writeBytes_writeBytes_same {m : Memory} (h : m.wf = true) (a : Nat) (bs : List Byte) :
    (m.writeBytes a bs).writeBytes a bs = m.writeBytes a bs := by
  have hw := wf_writeBytes bs m h a
  refine eq_of_read_eq _ _ (wf_writeBytes bs _ hw a) hw fun x => ?_
  rw [read_writeBytes bs _ hw, read_writeBytes bs _ h]
  split <;> rfl

/-- A second run, on the state the first run left, that ends like the first changes no item of R20. -/
theorem EndAlike.repeat_keeps_block {i : Instr} {s t u : State} (h : EndAlike i s t (.next t) (.next u))
    (hwf : s.fbuf.wf = true) : u.crcAcc = t.crcAcc ∧ u.fbuf = t.fbuf ∧ u.status = t.status := by
  generalize hr : (Host.Outcome.next t : Result) = r, hr' : (Host.Outcome.next u : Result) = r' at h
  cases h with
  | error e k => cases hr; cases hr'; exact ⟨rfl, rfl, by cases k <;> rfl⟩
  | success c bytes k out =>
    cases hr
    cases hr'
    exact ⟨by cases c <;> rfl, writeBytes_writeBytes_same hwf 0 bytes, by cases k <;> rfl⟩
  | kept => cases hr; cases hr'; exact ⟨rfl, rfl, rfl⟩

/-- A command that reads neither CRC_ACC nor FBUF, repeated with the same DIN, changes no item of R20 again. -/
theorem exec_repeat_keeps_block {i : Instr} {s t u : State} (hc : readsCrc i = false) (hf : readsFbuf i = false)
    (hwf : s.fbuf.wf = true) (hd : s.din = t.din) (ht : exec i s = .next t) (hu : exec i t = .next u) :
    u.crcAcc = t.crcAcc ∧ u.fbuf = t.fbuf ∧ u.status = t.status := by
  have h := exec_alike i hd (by simp [hc]) (by simp [hf])
  rw [ht, hu] at h
  exact h.repeat_keeps_block hwf

/-- The commands that write FBUF read neither CRC_ACC nor FBUF. -/
theorem reads_nothing_of_writesFbuf {i : Instr} (h : writesFbuf i = true) :
    readsCrc i = false ∧ readsFbuf i = false := by
  cases i with
  | frmBuild n x y => exact ⟨rfl, rfl⟩
  | fbLoad => exact ⟨rfl, rfl⟩
  | _ => cases h

/-- A run whose first event is an issued command goes on from the state the command's meaning answers. -/
theorem run_of_issue {n : Nat} {s u : State} {host : Nat} {i : Instr} {din : List Byte} {rest : List PortEvent}
    (hs : s.input = .command (issue host i din) :: rest) (hu : Host.Core.run core (n + 1) s = .next u) :
    ∃ t, exec i s = .next t ∧ t.input = rest ∧ Host.Core.run core n t = .next u := by
  obtain ⟨t, ht⟩ := exec_next i s
  exact ⟨t, ht, by rw [exec_input ht, hs, List.tail_cons], (run_command hs (decode_encode i) ht).symm.trans hu⟩

/-- Settles O58: FB.LOAD and FRM.BUILD read only their DIN, which is the same both times. -/
theorem repeatedBufferWritesAreIdempotent : Obligations.RepeatedBufferWritesAreIdempotent := by
  intro i host din s t u hwf hi h₁ h₂
  have hs : (s.withCommands [issue host i din, issue host i din]).input =
      [.command (issue host i din), .command (issue host i din)] := rfl
  obtain ⟨_, ht, htin, ⟨⟩⟩ := run_of_issue hs h₁
  obtain ⟨_, ht', -, h₂⟩ := run_of_issue hs h₂
  cases ht.symm.trans ht'
  obtain ⟨_, hu, -, ⟨⟩⟩ := run_of_issue htin h₂
  obtain ⟨hc, hf⟩ := reads_nothing_of_writesFbuf hi
  have hd := (din_of_command hs).trans (din_of_command htin).symm
  exact exec_repeat_keeps_block (s := s.withCommands _) hc hf hwf hd ht hu

end Sys2Proof.Proofs
end

section
/-! SUPPORT. The command encoding (30_encoding.md R61 to R65, R74): the legal words are the encodings of the commands, and
the decoder rejects every other word for the reason R64 or R65 gives. -/

namespace Sys2Proof.Proofs

open Sys2Proof Sys2Proof.Machine

/-- The decoder on a byte-wide port is the decoder on the word of the first four bytes. -/
theorem decodeBytes_wordToBytes (w : Word) (rest : List Byte) :
    decodeBytes (wordToBytes w ++ rest) = (decode w).map fun i => (i, rest) := by
  simp only [wordToBytes, List.cons_append, List.nil_append, decodeBytes, commandWord_fields]

/-- Settles O12: `decode_encode`, on the word and on its four bytes. -/
theorem decodeOfEncodeIsTheCommand : Obligations.DecodeOfEncodeIsTheCommand := by
  refine fun i rest => ⟨decode_encode i, ?_⟩
  rw [encodeBytes, decodeBytes_wordToBytes, decode_encode]
  rfl

/-! The op-selects of R63's table by the fields they use, as the obligations write them. -/

/-- The op-selects that use `A`, `B` and `C`. -/
def opsUsingABC : List Nat := [0x11, 0x14, 0x40]

/-- The op-selects that use `A` and mark `B` and `C` with "0". -/
def opsUsingA : List Nat := [0x10, 0x13, 0x31, 0x33]

/-- The op-selects that mark `A`, `B` and `C` with "0". -/
def opsUsingNoField : List Nat := [0x12, 0x20, 0x21, 0x30, 0x32, 0x41, 0x50, 0x51, 0x52]

/-- The sixteen op-selects of R63. -/
def definedOps : List Nat :=
  [0x10, 0x11, 0x12, 0x13, 0x14, 0x20, 0x21, 0x30, 0x31, 0x32, 0x33, 0x40, 0x41, 0x50, 0x51, 0x52]

theorem mem_definedOps {op : Nat} :
    op ∈ definedOps ↔ op ∈ opsUsingABC ∨ op ∈ opsUsingA ∨ op ∈ opsUsingNoField := by
  simp only [definedOps, opsUsingABC, opsUsingA, opsUsingNoField, List.mem_cons, List.not_mem_nil, or_false]
  tauto

/-- `B` and `C` are the word's bits from bit 16 on. -/
theorem bField_cField_eq_zero_iff (w : Word) : (bField w = 0#8 ∧ cField w = 0#8) ↔ w.toNat / 65536 = 0 := by
  have hw := w.isLt
  simp only [← BitVec.toNat_inj, bField_toNat, cField_toNat, BitVec.toNat_ofNat]
  omega

/-- `A`, `B` and `C` are the word's bits from bit 8 on. -/
theorem fields_eq_zero_iff (w : Word) :
    (aField w = 0#8 ∧ bField w = 0#8 ∧ cField w = 0#8) ↔ w.toNat / 256 = 0 := by
  rw [bField_cField_eq_zero_iff, ← BitVec.toNat_inj, aField_toNat, BitVec.toNat_ofNat]
  omega

/-- R64 on the word as a number: a defined op-select, and no bit set in a field that its row marks "0". -/
theorem legalWord_iff (w : Word) :
    legalWord w = true ↔
      w.toNat % 256 ∈ opsUsingABC ∨ (w.toNat % 256 ∈ opsUsingA ∧ w.toNat / 65536 = 0) ∨
        (w.toNat % 256 ∈ opsUsingNoField ∧ w.toNat / 256 = 0) := by
  conv_lhs => rw [← commandWord_fields w, legalWord_commandWord]
  rw [fields_eq_zero_iff, bField_cField_eq_zero_iff]
  simp [← BitVec.toNat_inj, opField_toNat, opsUsingABC, opsUsingA, opsUsingNoField]

/-- R65: an op-select outside R63's column. -/
theorem decode_of_undefined_op {w : Word} (h : w.toNat % 256 ∉ definedOps) : decode w = .error .opsel := by
  simp only [← opField_toNat, definedOps, List.mem_cons, List.not_mem_nil, or_false, not_or] at h
  simp [decode, h]

/-- R64 for the commands that use no field. -/
theorem decode_of_nonzero_abc {w : Word} (hop : w.toNat % 256 ∈ opsUsingNoField) (h : w.toNat / 256 ≠ 0) :
    decode w = .error .reservedField := by
  have hrej (i : Instr) : takesNoField w i = .error .reservedField := if_neg (mt (fields_eq_zero_iff w).mp h)
  simp only [opsUsingNoField, ← opField_toNat, List.mem_cons, List.not_mem_nil, or_false] at hop
  rcases hop with hop | hop | hop | hop | hop | hop | hop | hop | hop <;> simp only [decode, hop, hrej]

/-- R64 for the commands that use `A` only. -/
theorem decode_of_nonzero_bc {w : Word} (hop : w.toNat % 256 ∈ opsUsingA) (h : w.toNat / 65536 ≠ 0) :
    decode w = .error .reservedField := by
  have hrej (i : Byte → Instr) : takesA w i = .error .reservedField :=
    if_neg (mt (bField_cField_eq_zero_iff w).mp h)
  simp only [opsUsingA, ← opField_toNat, List.mem_cons, List.not_mem_nil, or_false] at hop
  rcases hop with hop | hop | hop | hop <;> simp only [decode, hop, hrej]

/-- A word that is not legal does not decode: one of the three rejections applies. -/
theorem decode_of_illegal {w : Word} (h : legalWord w ≠ true) : ∃ e, decode w = .error e := by
  by_cases hop : w.toNat % 256 ∈ definedOps
  · have h := mt (legalWord_iff w).mpr h
    rcases mem_definedOps.mp hop with habc | ha | hno
    · exact absurd (.inl habc) h
    · exact ⟨_, decode_of_nonzero_bc ha fun hz => h (.inr (.inl ⟨ha, hz⟩))⟩
    · exact ⟨_, decode_of_nonzero_abc hno fun hz => h (.inr (.inr ⟨hno, hz⟩))⟩
  · exact ⟨_, decode_of_undefined_op hop⟩

/-- Every legal word is the word of a command. -/
theorem exists_encode_of_legalWord {w : Word} (h : legalWord w = true) : ∃ i, encode i = w := by
  rw [← commandWord_fields w] at h ⊢
  generalize opField w = op, aField w = a, bField w = b, cField w = c at h ⊢
  rcases (legalWord_commandWord op a b c).mp h with hop | ⟨hop, rfl, rfl⟩ | ⟨hop, rfl, rfl, rfl⟩
  · rcases hop with rfl | rfl | rfl
    exacts [⟨.qntRgb a b c, rfl⟩, ⟨.dqnHex a b c, rfl⟩, ⟨.frmBuild a b c, rfl⟩]
  · rcases hop with rfl | rfl | rfl | rfl
    exacts [⟨.qntCh a, rfl⟩, ⟨.dqnCh a, rfl⟩, ⟨.crcByte a, rfl⟩, ⟨.crcSpan a, rfl⟩]
  · rcases hop with rfl | rfl | rfl | rfl | rfl | rfl | rfl | rfl | rfl
    exacts [⟨.qntHex, rfl⟩, ⟨.recEnc, rfl⟩, ⟨.recDec, rfl⟩, ⟨.crcInit, rfl⟩, ⟨.crcRead, rfl⟩, ⟨.frmParse, rfl⟩,
      ⟨.fbLoad, rfl⟩, ⟨.fbRead, rfl⟩, ⟨.stRead, rfl⟩]

/-- A word that decodes is legal. -/
theorem legalWord_of_decode {w : Word} {i : Instr} (h : decode w = .ok i) : legalWord w = true := by
  by_contra hl
  obtain ⟨e, he⟩ := decode_of_illegal hl
  cases he.symm.trans h

/-- The decoder drops no bit: a word that decodes is the encoding of what it decodes to. -/
theorem encode_of_decode {w : Word} {i : Instr} (h : decode w = .ok i) : encode i = w := by
  obtain ⟨j, rfl⟩ := exists_encode_of_legalWord (legalWord_of_decode h)
  cases (decode_encode j).symm.trans h
  rfl

/-- The decoder accepts exactly the legal words. -/
theorem legalWord_iff_decode (w : Word) : legalWord w = true ↔ ∃ i, decode w = .ok i := by
  refine ⟨fun h => ?_, fun ⟨_, h⟩ => legalWord_of_decode h⟩
  obtain ⟨i, rfl⟩ := exists_encode_of_legalWord h
  exact ⟨i, decode_encode i⟩

/-- A row's words have the op-select of its pattern, since every mask holds the op-select whole. -/
theorem opField_of_covers {row : OpRow} (hrow : row ∈ opcodeTable) {w : Word} (h : row.covers w = true) :
    opField w = opField row.pattern := by
  have hmask : ∀ row ∈ opcodeTable, opField row.mask = 0xFF#8 := by decide
  rw [← eq_of_beq h, opField_and, hmask row hrow, and_FF]

/-- No two rows of the table have the same op-select. -/
theorem opcodeTable_ops_distinct :
    opcodeTable.Pairwise fun row row' => opField row.pattern ≠ opField row'.pattern := by decide

/-- Settles O13: the legal words are the encodings of the commands, and rows differ in their op-selects. -/
theorem decodeAcceptsExactlyTheTable : Obligations.DecodeAcceptsExactlyTheTable := by
  refine ⟨fun w => ⟨legalWord_iff_decode w, fun _ => encode_of_decode⟩, ?_⟩
  refine opcodeTable_ops_distinct.imp_of_mem fun hrow hrow' hne w ⟨hw, hw'⟩ => hne ?_
  rw [← opField_of_covers hrow hw, opField_of_covers hrow' hw']

/-! What a step does with a command word. -/

/-- A word the decoder rejects raises its error. -/
theorem step_of_decode_error {s : State} {c : Command} {rest : List PortEvent} {e : DecodeError}
    (h : s.input = .command c :: rest) (hd : decode c.cw = .error e) : step s = illegal e s := by
  simp only [step, h, hd]

/-- R64 for the commands that use no field: bits 8 to 31 are reserved. -/
theorem raisesReservedField_of_usingNoField {op : Nat} (hop : op ∈ opsUsingNoField) : raisesReservedField op 8 := by
  rintro s c rest h rfl hne
  rw [step_of_decode_error h (decode_of_nonzero_abc hop hne)]
  exact raise_eq .reservedField s

/-- R64 for the commands that use `A` only: bits 16 to 31 are reserved. -/
theorem raisesReservedField_of_usingA {op : Nat} (hop : op ∈ opsUsingA) : raisesReservedField op 16 := by
  rintro s c rest h rfl hne
  rw [step_of_decode_error h (decode_of_nonzero_bc hop hne)]
  exact raise_eq .reservedField s

/-- Settles O8. -/
theorem undefinedOpselRaisesOpsel : Obligations.UndefinedOpselRaisesOpsel := by
  intro s c rest h hop
  rw [step_of_decode_error h (decode_of_undefined_op hop)]
  exact raise_eq .opsel s

/-- Settles O9, by the fields the op-select uses. -/
theorem nonzeroReservedFieldRaisesReservedField : Obligations.NonzeroReservedFieldRaisesReservedField := by
  rintro s c rest h (⟨hop, hne⟩ | ⟨hop, hne⟩)
  · exact raisesReservedField_of_usingNoField hop s c rest h rfl hne
  · exact raisesReservedField_of_usingA hop s c rest h rfl hne

/-- The response to a command is addressed to its host and carries STATUS as it stands after it. -/
theorem exec_answers_host {i : Instr} {s t : State} (h : exec i s = .next t) :
    ∃ out, t.response = some ⟨s.host, t.status.word, out⟩ := by
  have hE := exec_ends i s
  rw [h] at hE
  generalize hr : (Host.Outcome.next t : Result) = r at hE
  cases hE with
  | error e k => cases hr; exact ⟨_, rfl⟩
  | success c m k out => cases hr; exact ⟨_, rfl⟩
  | kept => cases hr; exact ⟨_, rfl⟩

/-- Settles O15, by the inversion of `exec`. -/
theorem responseGoesToTheIssuingHost : Obligations.ResponseGoesToTheIssuingHost := by
  intro i s c rest h
  obtain ⟨t, ht⟩ := exec_next i s
  obtain ⟨out, hout⟩ := exec_answers_host ht
  exact ⟨t, out, ht, by rw [exec_input ht, h, List.tail_cons], by rw [hout, host_of_command h]⟩

/-- Settles O7. -/
theorem stepRunsTheDecodedCommand : Obligations.StepRunsTheDecodedCommand := by
  intro s c rest i h hd
  have hs := step_of_decode h hd
  obtain ⟨t, ht⟩ := exec_next i s
  exact ⟨hs, t, hs.trans ht, by rw [exec_input ht, h, List.tail_cons]⟩

end Sys2Proof.Proofs
end

section
/-! SUPPORT. CRC.RUN (30_encoding.md R76): CRC.INIT, a CRC.BYTE for each byte and CRC.READ carry the checksum of R141
through CRC_ACC. -/

namespace Sys2Proof.Proofs

open Sys2Proof Sys2Proof.Machine

theorem exec_crcInit {s : State} (h : s.din = []) :
    exec .crcInit s = .next (afterSuccess s Config.hardware.crcSeed s.fbuf s.status.mtch []) := by
  simp only [exec, execCrcInit, crcInit, h, List.length_nil, ne_eq, not_true_eq_false, if_false]
  exact complete_eq [] _

theorem exec_crcByte {s : State} (b : Byte) (h : s.din = []) :
    exec (.crcByte b) s =
      .next (afterSuccess s (crc16Step Config.hardware s.crcAcc b) s.fbuf s.status.mtch []) := by
  simp only [exec, execCrcByte, crcByte, h, List.length_nil, ne_eq, not_true_eq_false, if_false]
  exact complete_eq [] _

theorem exec_crcRead {s : State} (h : s.din = []) :
    exec .crcRead s = .next (afterSuccess s s.crcAcc s.fbuf s.status.mtch (crcBytes s.crcAcc)) := by
  simp only [exec, execCrcRead, h, List.length_nil, ne_eq, not_true_eq_false, if_false]
  exact complete_eq _ s

/-- The two bytes of a checksum as numbers, low byte first. -/
theorem crcBytes_eq (v : Crc) : crcBytes v = [BitVec.ofNat 8 v.toNat, BitVec.ofNat 8 (v.toNat / 256)] := by
  simp [crcBytes, BitVec.extractLsb', Nat.shiftRight_eq_div_pow]

/-- A run whose first event is an issued command goes on from the state its meaning answers. -/
theorem run_issue {n : Nat} {s t : State} {host : Nat} {i : Instr} {din : List Byte} {rest : List PortEvent}
    (h : s.input = .command (issue host i din) :: rest) (ht : exec i s = .next t) :
    Host.Core.run core (n + 1) s = Host.Core.run core n t :=
  run_command h (decode_encode i) ht

/-- Commands of CRC.BYTE at the port advance CRC_ACC over their bytes, and the run goes on with what follows them. -/
theorem run_crcBytes (host : Nat) (bytes : List Byte) (rest : List PortEvent) (s : State)
    (h : s.input = (bytes.map fun b => .command (issue host (.crcByte b) [])) ++ rest) :
    ∃ t : State, (∀ n, Host.Core.run core (bytes.length + n) s = Host.Core.run core n t) ∧
      t.crcAcc = crc16From Config.hardware s.crcAcc bytes ∧ t.fbuf = s.fbuf ∧ t.input = rest := by
  induction bytes generalizing s with
  | nil => exact ⟨s, fun n => by rw [List.length_nil, Nat.zero_add], rfl, rfl, h⟩
  | cons b bs ih =>
    have hb := exec_crcByte b (din_of_command h)
    obtain ⟨t, hrun, hcrc, hfbuf, hin⟩ := ih _ ((exec_input hb).trans (by rw [h]; rfl))
    refine ⟨t, fun n => ?_, hcrc, hfbuf, hin⟩
    rw [List.length_cons, Nat.add_right_comm, run_issue h hb, hrun]

/-- Settles O44: CRC.INIT seeds the accumulator, `run_crcBytes` advances it, CRC.READ returns it. -/
theorem crcRunComputesTheChecksum : Obligations.CrcRunComputesTheChecksum := by
  intro s host bytes
  have hstart : (s.withCommands (crcRun host bytes)).input =
      .command (issue host .crcInit []) :: ((bytes.map fun b => .command (issue host (.crcByte b) [])) ++
        [.command (issue host .crcRead [])]) := by
    simp [crcRun]
  have hinit := exec_crcInit (din_of_command hstart)
  obtain ⟨t, hrun, hcrc, hfbuf, hin⟩ :=
    run_crcBytes host bytes _ _ ((exec_input hinit).trans (by rw [hstart, List.tail_cons]))
  have hread := exec_crcRead (din_of_command hin)
  have hend := calc Host.Core.run core (bytes.length + 2) (s.withCommands (crcRun host bytes))
    _ = Host.Core.run core (bytes.length + 1) _ := run_issue hstart hinit
    _ = Host.Core.run core 1 t := hrun 1
    _ = Host.Core.run core 0 _ := run_issue hin hread
  refine ⟨_, hend, hcrc, ?_, hfbuf, ?_⟩
  · exact (congrArg crcBytes hcrc).trans (crcBytes_eq _)
  · rw [exec_input hread, hin, List.tail_cons]

end Sys2Proof.Proofs
end

section
/-! SUPPORT. The mode ordinals (30_encoding.md R71) and the assembler's lines (R75). -/

namespace Sys2Proof.Proofs

open Sys2Proof Sys2Proof.Machine

/-- Modes whose ordinals are 0 to 4 in order have exactly the bytes up to 4 as ordinals. -/
theorem exists_ordinal_iff {α : Type} {ordinal : α → Byte} {modes : List α} (hall : ∀ m, m ∈ modes)
    (hord : modes.map ordinal = [0#8, 1#8, 2#8, 3#8, 4#8]) (v : Byte) : (∃ m, ordinal m = v) ↔ v ≤ 4#8 := by
  have hmem : (∃ m, ordinal m = v) ↔ v ∈ modes.map ordinal := by simp [hall]
  rw [hmem, hord]
  simp only [List.mem_cons, List.not_mem_nil, or_false]
  bv_omega

theorem exists_colorMode_ordinal_iff (v : Byte) : (∃ m : ColorMode, m.ordinal = v) ↔ v ≤ 4#8 :=
  exists_ordinal_iff (modes := [.color1, .color2, .color1Dim2, .color2Dim1, .color1Pulse2])
    (fun m => by cases m <;> simp) rfl v

theorem exists_ledMode_ordinal_iff (v : Byte) : (∃ m : LedMode, m.ordinal = v) ↔ v ≤ 4#8 :=
  exists_ordinal_iff (modes := [.off, .constant, .slowBlink, .fastBlink, .ultraBlink])
    (fun m => by cases m <;> simp) rfl v

/-- Settles O36: with quantized channels, the descriptor check compares the two modes with 4. -/
theorem modeOrdinalsAreZeroToFour : Obligations.ModeOrdinalsAreZeroToFour := by
  refine ⟨rfl, rfl, rfl, rfl, rfl, rfl, rfl, rfl, rfl, rfl, fun d i h1 h2 => ?_⟩
  rw [checkDescriptor_eq_none, exists_colorMode_ordinal_iff, exists_ledMode_ordinal_iff]
  simp [Descriptor.wellFormed, h1, h2]

/-- Settles O59, by evaluation of the assembler on the three lines. -/
theorem assemblerEncodesTheSpecsLines : Obligations.AssemblerEncodesTheSpecsLines := by
  unfold Obligations.AssemblerEncodesTheSpecsLines
  decide

end Sys2Proof.Proofs
end

section
/-! SUPPORT. The colour commands (40_color.md): the command words and the DIN check they share, the rounding of the
quantizers, and the hex colour strings that QNT.HEX reads and DQN.HEX writes. -/

namespace Sys2Proof.Proofs

open Sys2Proof Sys2Proof.Machine

/-! The purity of the commands that only compute. -/

/-- Settles O22: these commands read only DIN, so they end alike, and they write neither CRC_ACC nor FBUF. -/
theorem colourAndRecordCommandsArePure : Obligations.ColourAndRecordCommandsArePure := by
  intro i s s' hd hi
  obtain ⟨hrc, hrf, hwc, hwf, hst⟩ : readsCrc i = false ∧ readsFbuf i = false ∧ writesCrc i = false ∧
      writesFbuf i = false ∧ i ≠ .stRead := by
    revert hi
    cases i <;> simp [readsCrc, readsFbuf, writesCrc, writesFbuf]
  obtain ⟨t, t', ht, ht', hcommon⟩ := exec_next_alike i hd (by simp [hrc]) (by simp [hrf])
  obtain ⟨herr, hcause, hindex, hdout⟩ := hcommon.outcome hst
  exact ⟨t, t', ht, ht', hdout, herr, hcause, hindex, (exec_frame ht).1 hwc, (exec_frame ht).2 hwf,
    (exec_frame ht').1 hwc, (exec_frame ht').2 hwf⟩

/-! Command words as numbers, and the check that DIN is empty. -/

/-- A number that is a command's word decodes to the command. -/
theorem decode_ofNat {i : Instr} {n : Nat} (h : (encode i).toNat = n) : decode (BitVec.ofNat 32 n) = .ok i := by
  rw [← h, BitVec.ofNat_toNat, BitVec.setWidth_eq, decode_encode]

/-- A command that writes only STATUS and takes no DIN succeeds on an empty DIN, and raises DATA_LEN on any other. -/
theorem emptyDin_outcome (s : State) (out : List Byte) :
    (s.din = [] → (if s.din.length ≠ 0 then raise .dataLen s else complete out s) =
      .next (afterSuccess s s.crcAcc s.fbuf s.status.mtch out)) ∧
    (s.din ≠ [] → (if s.din.length ≠ 0 then raise .dataLen s else complete out s) =
      .next (afterError s 1 0x06 0xFF s.status.mtch)) := by
  exact ⟨fun h => (if_neg (not_not.mpr (List.length_eq_zero_iff.mpr h))).trans (complete_eq out s),
    fun h => (if_pos (mt List.length_eq_zero_iff.mp h)).trans (raise_eq .dataLen s)⟩

/-! The quantizer and the dequantizer as numbers (R100 to R102): no result is cut to its byte. -/

theorem q3_toNat (c : Byte) : (q3 c).toNat = (7 * c.toNat + 127) / 255 := by
  have := c.isLt
  rw [q3, BitVec.toNat_ofNat]
  omega

theorem dq8_toNat {v : Byte} (h : v.toNat ≤ 7) : (dq8 v).toNat = (255 * v.toNat + 3) / 7 := by
  rw [dq8, BitVec.toNat_ofNat]
  omega

theorem clamp7_toNat (v : Byte) : (clamp7 v).toNat = min v.toNat 7 := by
  unfold clamp7
  split <;> bv_omega

theorem clamp7_of_le {v : Byte} (h : v.toNat ≤ 7) : clamp7 v = v := if_pos h

theorem dq8_clamp7_toNat (v : Byte) : (dq8 (clamp7 v)).toNat = rescaled v.toNat := by
  rw [dq8_toNat (clamp7_toNat v ▸ Nat.min_le_right _ _), clamp7_toNat, rescaled]

theorem q3_toNat_le (c : Byte) : (q3 c).toNat ≤ 7 := by
  have := c.isLt
  rw [q3_toNat]
  omega

/-- A channel given by a number below 256. -/
theorem q3_ofNat {n : Nat} (h : n < 256) : q3 (BitVec.ofNat 8 n) = quantized n := by
  rw [q3, BitVec.toNat_ofNat, Nat.mod_eq_of_lt h, quantized]

/-- R109 on one channel. -/
theorem q3_dq8 {v : Byte} (h : v.toNat ≤ 7) : q3 (dq8 v) = v := by
  apply BitVec.eq_of_toNat_eq
  rw [q3_toNat, dq8_toNat h]
  omega

theorem q3_dq8_clamp7_q3 (c : Byte) : q3 (dq8 (clamp7 (q3 c))) = q3 c := by
  rw [clamp7_of_le (q3_toNat_le c), q3_dq8 (q3_toNat_le c)]

/-- Settles O31, by arithmetic on the quantizers as numbers. -/
theorem quantizersRoundToNearest : Obligations.QuantizersRoundToNearest := by
  refine ⟨fun c => ⟨q3_toNat_le c, ?_⟩, fun v hv => ?_⟩
  · rw [q3_toNat]
    omega
  · rw [dq8_toNat hv]
    omega

/-! The commands on one and on three channels. -/

/-- Settles O25. -/
theorem qntChQuantizesOneChannel : Obligations.QntChQuantizesOneChannel := by
  intro c s
  refine ⟨decode_ofNat ?_, raisesReservedField_of_usingA (by decide), emptyDin_outcome s [q3 c]⟩
  simp [encode, commandWord_toNat]

/-- Settles O26. -/
theorem qntRgbQuantizesThreeChannels : Obligations.QntRgbQuantizesThreeChannels := by
  intro r g b s
  exact ⟨decode_ofNat (commandWord_toNat _ r g b), emptyDin_outcome s [q3 r, q3 g, q3 b]⟩

/-- Settles O29. -/
theorem dqnChRescalesOneChannel : Obligations.DqnChRescalesOneChannel := by
  intro v s
  rw [← dq8_clamp7_toNat v, BitVec.ofNat_toNat, BitVec.setWidth_eq]
  refine ⟨decode_ofNat ?_, raisesReservedField_of_usingA (by decide), emptyDin_outcome s [dq8 (clamp7 v)]⟩
  simp [encode, commandWord_toNat]

/-! The hex digits (R72, R108). -/

theorem lt_of_hexValue {c : Byte} {v : Nat} (h : HexValue c v) : v < 16 := by
  unfold HexValue at h
  omega

theorem hexDigit_eq_some {c : Byte} {v : Nat} : hexDigit c = some v ↔ HexValue c v := by
  unfold hexDigit HexValue
  split_ifs
  case neg =>
    rw [iff_false_left nofun]
    omega
  all_goals
    rw [Option.some.injEq]
    omega

theorem hexDigits_eq_some {cs : List Byte} {vs : List Nat} :
    hexDigits cs = some vs ↔ List.Forall₂ HexValue cs vs := by
  induction cs generalizing vs with
  | nil => simp [hexDigits, eq_comm]
  | cons c cs ih =>
    rw [List.forall₂_cons_left_iff]
    simp only [← ih, ← hexDigit_eq_some]
    cases hc : hexDigit c with
    | none => simp [hexDigits, hc]
    | some v =>
      cases hcs : hexDigits cs with
      | none => simp [hexDigits, hc, hcs]
      | some vs' => simp [hexDigits, hc, hcs, eq_comm]

/-- A byte that is no hex digit spoils a string. -/
theorem hexDigits_eq_none {cs : List Byte} (h : ∃ c ∈ cs, ∀ v, ¬HexValue c v) : hexDigits cs = none := by
  obtain ⟨c, hc, hv⟩ := h
  refine Option.eq_none_iff_forall_ne_some.mpr fun vs hvs => ?_
  obtain ⟨i, hi, rfl⟩ := List.getElem_of_mem hc
  have hall := hexDigits_eq_some.mp hvs
  exact hv _ (hall.get hi (hall.length_eq ▸ hi))

theorem hexValue_hexLow (x : BitVec 4) : HexValue (hexLow x) x.toNat := by
  have := x.isLt
  unfold HexValue hexLow
  split_ifs
  all_goals
    rw [BitVec.toNat_ofNat]
    omega

/-- The two digits of a byte as 4-bit numbers. -/
theorem high4_toNat (w : Byte) : (w.extractLsb' 4 4).toNat = w.toNat / 16 := by
  have := w.isLt
  rw [BitVec.extractLsb'_toNat, Nat.shiftRight_eq_div_pow]
  omega

theorem low4_toNat (w : Byte) : (w.extractLsb' 0 4).toNat = w.toNat % 16 := by
  simp [BitVec.extractLsb'_toNat]

theorem hexPair_eq_hexText (w : Byte) : hexPair w = hexText w.toNat := by
  simp only [hexPair, hexLow, high4_toNat, low4_toNat, hexText, List.map_cons, List.map_nil, apply_ite]

theorem hexValue_hexPair (w : Byte) : List.Forall₂ HexValue (hexPair w) [w.toNat / 16, w.toNat % 16] :=
  .cons (high4_toNat w ▸ hexValue_hexLow _) (.cons (low4_toNat w ▸ hexValue_hexLow _) .nil)

theorem exec_dqnHex {s : State} (r g b : Byte) (h : s.din = []) :
    exec (.dqnHex r g b) s = .next (afterSuccess s s.crcAcc s.fbuf s.status.mtch
      (0x23#8 :: (hexPair (dq8 (clamp7 r)) ++ hexPair (dq8 (clamp7 g)) ++ hexPair (dq8 (clamp7 b))))) :=
  (emptyDin_outcome s _).1 h

/-- Settles O30: the digits of the model are those of the rescaled value as a number. -/
theorem dqnHexRendersAColourString : Obligations.DqnHexRendersAColourString := by
  intro r g b s
  simp only [← dq8_clamp7_toNat, ← hexPair_eq_hexText]
  exact ⟨decode_ofNat (commandWord_toNat _ r g b), emptyDin_outcome s _⟩

/-! The strings QNT.HEX accepts, and what it raises on the others (R103). -/

theorem stripHash_of_head_ne {str : List Byte} (h : str.head? ≠ some 0x23#8) : stripHash str = str := by
  cases str with
  | nil => rfl
  | cons c cs => exact if_neg fun hc => h (congrArg some hc)

/-- No hex digit is a `#`, so a string of digits is what stands after its optional `#`. -/
theorem stripHash_digits {hash ds : List Byte} {vs : List Nat} (hh : hash = [] ∨ hash = [0x23#8])
    (h : List.Forall₂ HexValue ds vs) : stripHash (hash ++ ds) = ds := by
  rcases hh with rfl | rfl
  · refine stripHash_of_head_ne fun hhead => ?_
    cases h with
    | nil => cases hhead
    | cons hc _ =>
      cases hhead
      simp only [HexValue, BitVec.toNat_ofNat] at hc
      omega
  · rfl

theorem parseHex_three {str : List Byte} {r g b : Nat} (h : List.Forall₂ HexValue (stripHash str) [r, g, b]) :
    parseHex str = .ok ⟨BitVec.ofNat 8 (17 * r), BitVec.ofNat 8 (17 * g), BitVec.ofNat 8 (17 * b)⟩ := by
  simp [parseHex, h.length_eq, hexDigits_eq_some.mpr h]

theorem parseHex_six {str : List Byte} {r1 r0 g1 g0 b1 b0 : Nat}
    (h : List.Forall₂ HexValue (stripHash str) [r1, r0, g1, g0, b1, b0]) :
    parseHex str =
      .ok ⟨BitVec.ofNat 8 (16 * r1 + r0), BitVec.ofNat 8 (16 * g1 + g0), BitVec.ofNat 8 (16 * b1 + b0)⟩ := by
  simp [parseHex, h.length_eq, hexDigits_eq_some.mpr h]

theorem parseHex_of_length {str : List Byte} (h : (stripHash str).length ≠ 3 ∧ (stripHash str).length ≠ 6) :
    parseHex str = .error .hexLen := if_pos h

theorem parseHex_of_char {str : List Byte} (hl : (stripHash str).length = 3 ∨ (stripHash str).length = 6)
    (h : ∃ c ∈ stripHash str, ∀ v, ¬HexValue c v) : parseHex str = .error .hexChar := by
  rw [parseHex, if_neg (by omega), hexDigits_eq_none h]

theorem exec_qntHex_of_ok {s : State} {c : Rgb} (h : parseHex s.din = .ok c) :
    exec .qntHex s = .next (afterSuccess s s.crcAcc s.fbuf s.status.mtch [q3 c.r, q3 c.g, q3 c.b]) := by
  simp only [exec, execQntHex, h, complete_eq]

theorem exec_qntHex_of_error {s : State} {e : CmdError} (h : parseHex s.din = .error e) :
    exec .qntHex s = .next (afterError s e.errClass.code.toNat e.cause.toNat e.index.toNat s.status.mtch) := by
  simp only [exec, execQntHex, h, raise_eq]

/-- The channel of one digit of a 3-digit string. -/
theorem q3_doubled {c : Byte} {v : Nat} (h : HexValue c v) : q3 (BitVec.ofNat 8 (17 * v)) = quantized (17 * v) := by
  have := lt_of_hexValue h
  exact q3_ofNat (by omega)

/-- The channel of two digits of a 6-digit string. -/
theorem q3_paired {c c' : Byte} {v v' : Nat} (h : HexValue c v) (h' : HexValue c' v') :
    q3 (BitVec.ofNat 8 (16 * v + v')) = quantized (16 * v + v') := by
  have := lt_of_hexValue h
  have := lt_of_hexValue h'
  exact q3_ofNat (by omega)

/-- Settles O27: what stands after the optional `#` parses digit by digit, and its channels are below 256. -/
theorem qntHexQuantizesAColourString : Obligations.QntHexQuantizesAColourString := by
  intro s hash hh
  constructor
  · intro c0 c1 c2 x0 x1 x2 h0 h1 h2 hd
    have hds : List.Forall₂ HexValue [c0, c1, c2] [x0, x1, x2] := .cons h0 (.cons h1 (.cons h2 .nil))
    have hp := parseHex_three (str := s.din) (by rwa [hd, stripHash_digits hh hds])
    rw [exec_qntHex_of_ok hp, q3_doubled h0, q3_doubled h1, q3_doubled h2]
  · intro c0 c1 c2 c3 c4 c5 x0 x1 x2 x3 x4 x5 h0 h1 h2 h3 h4 h5 hd
    have hds : List.Forall₂ HexValue [c0, c1, c2, c3, c4, c5] [x0, x1, x2, x3, x4, x5] :=
      .cons h0 (.cons h1 (.cons h2 (.cons h3 (.cons h4 (.cons h5 .nil)))))
    have hp := parseHex_six (str := s.din) (by rwa [hd, stripHash_digits hh hds])
    rw [exec_qntHex_of_ok hp, q3_paired h0 h1, q3_paired h2 h3, q3_paired h4 h5]

/-- Settles O28, by the two checks of `parse_hex` on what stands after the optional `#`. -/
theorem qntHexRejectsMalformedStrings : Obligations.QntHexRejectsMalformedStrings := by
  intro s rest hd
  obtain rfl : stripHash s.din = rest := by
    rcases hd with hd | ⟨hd, hhead⟩
    · rw [hd]
      rfl
    · rw [hd, stripHash_of_head_ne hhead]
  exact ⟨fun hl => exec_qntHex_of_error (parseHex_of_length hl),
    fun hl hc => exec_qntHex_of_error (parseHex_of_char hl hc)⟩

/-! Quantizing a rendered colour (R109). -/

/-- QNT.HEX's parser reads back the channels that DQN.HEX's digits write. -/
theorem parseHex_hexPairs (r g b : Byte) :
    parseHex (0x23#8 :: (hexPair r ++ hexPair g ++ hexPair b)) = .ok ⟨r, g, b⟩ := by
  have hp := parseHex_six (str := 0x23#8 :: (hexPair r ++ hexPair g ++ hexPair b))
    (List.rel_append (List.rel_append (hexValue_hexPair r) (hexValue_hexPair g)) (hexValue_hexPair b))
  simpa only [Nat.div_add_mod, BitVec.ofNat_toNat, BitVec.setWidth_eq] using hp

/-- A success of QNT.HEX is the success of its parser. -/
theorem qntHex_success {s t : State} (h : exec .qntHex s = .next t) (he : t.status.err = 0#3) :
    ∃ c : Rgb, t.dout = [q3 c.r, q3 c.g, q3 c.b] := by
  cases hp : parseHex s.din with
  | ok c =>
    cases (exec_qntHex_of_ok hp).symm.trans h
    exact ⟨c, rfl⟩
  | error e =>
    cases (exec_qntHex_of_error hp).symm.trans h
    rcases parseHex_error hp with rfl | rfl <;> cases he

/-- Settles O32: the parser reads back the rendered channels, and `q3` undoes `dq8` on each. -/
theorem requantizingARenderedColourIsStable : Obligations.RequantizingARenderedColourIsStable := by
  refine ⟨fun _ => q3_dq8, fun s t hs he => ?_⟩
  obtain ⟨c, hc⟩ := qntHex_success hs he
  refine ⟨_, _, _, hc, fun u u' hu hu' w w' hw hw' => ?_⟩
  cases (exec_dqnHex _ _ _ hu).symm.trans hu'
  have hread := exec_qntHex_of_ok ((congrArg parseHex hw).trans (parseHex_hexPairs _ _ _))
  cases hread.symm.trans hw'
  exact ⟨by simp only [afterSuccess_dout, q3_dq8_clamp7_q3], rfl⟩

end Sys2Proof.Proofs
end

section
/-! SUPPORT. The LED records (30_encoding.md R68 to R70, 41_record.md): the packed group as a number, the round trips
between descriptors and records, and the outcomes of REC.ENC and REC.DEC. -/

namespace Sys2Proof.Proofs

open Sys2Proof Sys2Proof.Machine

/-! The descriptor check (R122) on the fields as numbers. -/

theorem wellFormed_iff (d : Descriptor) :
    d.wellFormed = true ↔
      d.colorMode.toNat ≤ 4 ∧ d.ledMode.toNat ≤ 4 ∧
      (d.color1.r.toNat ≤ 7 ∧ d.color1.g.toNat ≤ 7 ∧ d.color1.b.toNat ≤ 7) ∧
      d.color2.r.toNat ≤ 7 ∧ d.color2.g.toNat ≤ 7 ∧ d.color2.b.toNat ≤ 7 := by
  simp [Descriptor.wellFormed, Rgb.quantized, BitVec.le_def, and_assoc]

theorem checkDescriptor_of_colorMode {d : Descriptor} (i : Byte) (h : d.colorMode.toNat > 4) :
    checkDescriptor d i = some (.colorMode i) := if_pos h

theorem checkDescriptor_of_ledMode {d : Descriptor} (i : Byte) (hc : d.colorMode.toNat ≤ 4)
    (h : d.ledMode.toNat > 4) : checkDescriptor d i = some (.ledMode i) :=
  (if_neg (Nat.not_lt.mpr hc)).trans (if_pos h)

/-- With legal modes only the channel check is left to fail. -/
theorem checkDescriptor_of_channel {d : Descriptor} (i : Byte) (hc : d.colorMode.toNat ≤ 4)
    (hl : d.ledMode.toNat ≤ 4) (h : d.wellFormed = false) : checkDescriptor d i = some (.colorRange i) := by
  have hcolor : ¬d.colorMode > 4#8 := Nat.not_lt.mpr hc
  have hled : ¬d.ledMode > 4#8 := Nat.not_lt.mpr hl
  have hnone := mt (checkDescriptor_eq_none d i).mp (Bool.not_eq_true _ ▸ h)
  rw [checkDescriptor, if_neg hcolor, if_neg hled] at hnone ⊢
  exact ite_eq_left_iff.mpr fun hn => absurd (if_neg hn) hnone

/-! The packed group G (R68, R69) as a number. -/

/-- The group that `unpack_record` reads from a record's bytes (R70). -/
def groupOf (r : Record) : BitVec 24 := r.byte3 ++ r.byte2 ++ r.byte1

theorem groupOf_toNat (r : Record) :
    (groupOf r).toNat = r.byte1.toNat + 2 ^ 8 * r.byte2.toNat + 2 ^ 16 * r.byte3.toNat := by
  simp only [groupOf, BitVec.toNat_append]
  rw [← Nat.shiftLeft_add_eq_or_of_lt r.byte1.isLt, ← Nat.shiftLeft_add_eq_or_of_lt r.byte2.isLt]
  simp only [Nat.shiftLeft_eq]
  omega

/-- The `n` bits of a group from bit `lo` on, as a number. -/
theorem groupBits_toNat (g : BitVec 24) (lo n : Nat) :
    (g.extractLsb' lo n).toNat = g.toNat / 2 ^ lo % 2 ^ n := by
  rw [BitVec.extractLsb'_toNat, Nat.shiftRight_eq_div_pow]

theorem field3_toNat (g : BitVec 24) (lo : Nat) : (field3 g lo).toNat = g.toNat / 2 ^ lo % 8 := by
  rw [field3, BitVec.toNat_setWidth_of_le (by decide)]
  exact groupBits_toNat g lo 3

theorem low3_toNat (b : Byte) : (low3 b).toNat = b.toNat % 8 := by
  simp [low3, BitVec.extractLsb'_toNat]

/-- A field's byte has the field as its low three bits. -/
theorem low3_field3 (g : BitVec 24) (lo : Nat) : low3 (field3 g lo) = g.extractLsb' lo 3 := by
  apply BitVec.eq_of_toNat_eq
  rw [low3_toNat, field3_toNat, Nat.mod_mod]
  exact (groupBits_toNat g lo 3).symm

theorem append_low3_toNat {n : Nat} (g : BitVec n) (b : Byte) : (g ++ low3 b).toNat = 8 * g.toNat + b.toNat % 8 := by
  rw [BitVec.toNat_append, ← Nat.shiftLeft_add_eq_or_of_lt (low3 b).isLt, low3_toNat, Nat.shiftLeft_eq, Nat.mul_comm]

/-- The group holds the low three bits of each field at the field's position. -/
theorem packGroup_toNat (d : Descriptor) :
    (packGroup d).toNat =
      2 ^ 21 * (d.colorMode.toNat % 8) + 2 ^ 18 * (d.ledMode.toNat % 8) + 2 ^ 15 * (d.color2.b.toNat % 8) +
        2 ^ 12 * (d.color2.g.toNat % 8) + 2 ^ 9 * (d.color2.r.toNat % 8) + 2 ^ 6 * (d.color1.b.toNat % 8) +
        2 ^ 3 * (d.color1.g.toNat % 8) + d.color1.r.toNat % 8 := by
  simp only [packGroup, append_low3_toNat, low3_toNat]
  omega

/-- No field of a well-formed descriptor is cut to its three bits. -/
theorem packGroup_of_wellFormed {d : Descriptor} (h : d.wellFormed = true) : (packGroup d).toNat = groupValue d := by
  obtain ⟨hc, hl, ⟨hr1, hg1, hb1⟩, hr2, hg2, hb2⟩ := (wellFormed_iff d).mp h
  rw [packGroup_toNat, groupValue]
  omega

/-- The record's bytes are those of R68, written out as numbers. -/
theorem packRecord_bytes {d : Descriptor} (h : d.wellFormed = true) : (packRecord d).bytes = recordValue d := by
  simp [packRecord, Record.bytes, recordValue, BitVec.extractLsb', packGroup_of_wellFormed h,
    Nat.shiftRight_eq_div_pow]

theorem unpackRecord_fields (r : Record) :
    unpackRecord r =
      { ledId := r.byte0
        colorMode := field3 (groupOf r) 21
        ledMode := field3 (groupOf r) 18
        color1 := ⟨field3 (groupOf r) 0, field3 (groupOf r) 3, field3 (groupOf r) 6⟩
        color2 := ⟨field3 (groupOf r) 9, field3 (groupOf r) 12, field3 (groupOf r) 15⟩ } := rfl

/-- The descriptor's fields are those of R68, written out as numbers. -/
theorem unpackRecord_eq (r : Record) : unpackRecord r = descriptorValue r := by
  have hfield (lo : Nat) : field3 (groupOf r) lo = BitVec.ofNat 8 ((groupOf r).toNat / 2 ^ lo % 8) := by
    rw [← field3_toNat, BitVec.ofNat_toNat, BitVec.setWidth_eq]
  simp only [groupOf_toNat] at hfield
  simp only [unpackRecord_fields, hfield, descriptorValue]

/-- The colour mode stands in bits 7 to 5 of byte 3. -/
theorem unpackRecord_colorMode_toNat (r : Record) : (unpackRecord r).colorMode.toNat = r.byte3.toNat / 32 := by
  have h1 := r.byte1.isLt
  have h2 := r.byte2.isLt
  have h3 := r.byte3.isLt
  calc (unpackRecord r).colorMode.toNat = (groupOf r).toNat / 2 ^ 21 % 8 := field3_toNat _ _
    _ = r.byte3.toNat / 32 := by rw [groupOf_toNat]; omega

/-- The LED mode stands in bits 4 to 2 of byte 3. -/
theorem unpackRecord_ledMode_toNat (r : Record) : (unpackRecord r).ledMode.toNat = r.byte3.toNat / 4 % 8 := by
  have h1 := r.byte1.isLt
  have h2 := r.byte2.isLt
  calc (unpackRecord r).ledMode.toNat = (groupOf r).toNat / 2 ^ 18 % 8 := field3_toNat _ _
    _ = r.byte3.toNat / 4 % 8 := by rw [groupOf_toNat]; omega

/-- An unpacked record is well-formed when its two ordinals are legal: its channels always are. -/
theorem unpackRecord_wellFormed_iff (r : Record) :
    (unpackRecord r).wellFormed = true ↔ r.byte3.toNat / 32 ≤ 4 ∧ r.byte3.toNat / 4 % 8 ≤ 4 := by
  obtain ⟨h1, h2⟩ := unpackRecord_quantized r
  simp only [Descriptor.wellFormed, h1, h2, Bool.and_true, Bool.and_eq_true, decide_eq_true_eq, BitVec.le_def,
    unpackRecord_colorMode_toNat, unpackRecord_ledMode_toNat, BitVec.toNat_ofNat]

/-! The laws of R70 between `pack_record` and `unpack_record`. -/

theorem groupOf_packRecord (d : Descriptor) : groupOf (packRecord d) = packGroup d := by
  have hlt := (packGroup d).isLt
  apply BitVec.eq_of_toNat_eq
  rw [groupOf_toNat]
  simp only [packRecord, groupBits_toNat]
  omega

/-- Three more bits of a group, below the `m` bits taken so far. -/
theorem extractLsb'_append_low3_field3 (g : BitVec 24) (lo m : Nat) :
    g.extractLsb' (lo + 3) m ++ low3 (field3 g lo) = g.extractLsb' lo (m + 3) := by
  apply BitVec.eq_of_toNat_eq
  rw [append_low3_toNat, field3_toNat, Nat.mod_mod, groupBits_toNat, groupBits_toNat, pow_add,
    ← Nat.div_div_eq_div_mul, pow_add, Nat.mul_comm (2 ^ m), Nat.mod_mul]
  exact Nat.add_comm _ _

/-- The fields taken from a group, packed again, are its 24 bits, three at a time from the top. -/
theorem packGroup_unpackRecord (r : Record) : packGroup (unpackRecord r) = groupOf r := by
  have hnext := extractLsb'_append_low3_field3 (groupOf r)
  simp only [packGroup, unpackRecord_fields]
  rw [low3_field3 _ 21, hnext 18 3, hnext 15 6, hnext 12 9, hnext 9 12, hnext 6 15, hnext 3 18, hnext 0 21,
    BitVec.extractLsb'_eq_self]

/-- Unpacking undoes packing on the well-formed descriptors. -/
theorem unpackRecord_packRecord {d : Descriptor} (h : d.wellFormed = true) : unpackRecord (packRecord d) = d := by
  obtain ⟨hc, hl, ⟨hr1, hg1, hb1⟩, hr2, hg2, hb2⟩ := (wellFormed_iff d).mp h
  have hfield {lo : Nat} {v : Byte} (hv : groupValue d / 2 ^ lo % 8 = v.toNat) : field3 (packGroup d) lo = v :=
    BitVec.eq_of_toNat_eq (by rw [field3_toNat, packGroup_of_wellFormed h, hv])
  rw [groupValue] at hfield
  rw [unpackRecord_fields, groupOf_packRecord, hfield (v := d.colorMode) (by omega), hfield (v := d.ledMode) (by omega),
    hfield (v := d.color1.r) (by omega), hfield (v := d.color1.g) (by omega), hfield (v := d.color1.b) (by omega),
    hfield (v := d.color2.r) (by omega), hfield (v := d.color2.g) (by omega), hfield (v := d.color2.b) (by omega)]
  rfl

/-- Packing undoes unpacking on every record. -/
theorem packRecord_unpackRecord (r : Record) : packRecord (unpackRecord r) = r := by
  have h1 := r.byte1.isLt
  have h2 := r.byte2.isLt
  have hbyte {lo : Nat} {v : Byte} (hv : (groupOf r).toNat / 2 ^ lo % 2 ^ 8 = v.toNat) :
      (groupOf r).extractLsb' lo 8 = v :=
    BitVec.eq_of_toNat_eq (by rw [groupBits_toNat, hv])
  rw [groupOf_toNat] at hbyte
  rw [packRecord, packGroup_unpackRecord, hbyte (v := r.byte1) (by omega), hbyte (v := r.byte2) (by omega),
    hbyte (v := r.byte3) (by omega)]
  rfl

/-! The outcomes of REC.ENC (R120) and REC.DEC (R121). -/

theorem exec_recEnc_of_wellFormed {s : State} {d : Descriptor} (hd : s.din = d.bytes) (h : d.wellFormed = true) :
    exec .recEnc s = .next (afterSuccess s s.crcAcc s.fbuf s.status.mtch (packRecord d).bytes) := by
  simp only [exec, execRecEnc, hd, descriptor_ofBytes_bytes, (checkDescriptor_eq_none d _).mpr h, complete_eq]

theorem exec_recEnc_of_check {s : State} {d : Descriptor} {e : CmdError} (hd : s.din = d.bytes)
    (h : checkDescriptor d 0xFF#8 = some e) :
    exec .recEnc s = .next (afterError s e.errClass.code.toNat e.cause.toNat e.index.toNat s.status.mtch) := by
  simp only [exec, execRecEnc, hd, descriptor_ofBytes_bytes, h, raise_eq]

theorem exec_recEnc_of_length {s : State} (h : s.din.length ≠ 9) :
    exec .recEnc s = .next (afterError s 1 0x06 0xFF s.status.mtch) := by
  rcases descriptor_ofBytes_cases s.din with ⟨_, hn⟩ | ⟨d, hd, _⟩
  · simp only [exec, execRecEnc, hn]
    exact raise_eq .dataLen s
  · exact absurd (congrArg List.length hd) h

theorem exec_recDec_of_wellFormed {s : State} {r : Record} (hd : s.din = r.bytes)
    (h : (unpackRecord r).wellFormed = true) :
    exec .recDec s = .next (afterSuccess s s.crcAcc s.fbuf s.status.mtch (unpackRecord r).bytes) := by
  simp only [exec, execRecDec, hd, record_ofBytes_bytes, (checkDescriptor_eq_none _ _).mpr h, complete_eq]

theorem exec_recDec_of_check {s : State} {r : Record} {e : CmdError} (hd : s.din = r.bytes)
    (h : checkDescriptor (unpackRecord r) 0xFF#8 = some e) :
    exec .recDec s = .next (afterError s e.errClass.code.toNat e.cause.toNat e.index.toNat s.status.mtch) := by
  simp only [exec, execRecDec, hd, record_ofBytes_bytes, h, raise_eq]

theorem exec_recDec_of_length {s : State} (h : s.din.length ≠ 4) :
    exec .recDec s = .next (afterError s 1 0x06 0xFF s.status.mtch) := by
  rcases record_ofBytes_cases s.din with ⟨_, hn⟩ | ⟨r, hr, _⟩
  · simp only [exec, execRecDec, hn]
    exact raise_eq .dataLen s
  · exact absurd (congrArg List.length hr) h

/-- REC.DEC reports no error only on a record whose descriptor passes the check. -/
theorem wellFormed_of_recDec_success {s t : State} {r : Record} (hd : s.din = r.bytes) (h : exec .recDec s = .next t)
    (he : t.status.err = 0#3) : (unpackRecord r).wellFormed = true := by
  rcases checkDescriptor_unpack r 0xFF#8 with hc | hc | hc
  · exact (checkDescriptor_eq_none _ _).mp hc
  · cases (exec_recDec_of_check hd hc).symm.trans h
    cases he
  · cases (exec_recDec_of_check hd hc).symm.trans h
    cases he

/-- Settles O35: each command's DOUT is the packing or unpacking of its DIN, and these undo each other. -/
theorem recordCodecRoundTrips : Obligations.RecordCodecRoundTrips := by
  constructor
  · intro d s t u hwf hs ht hu
    cases (exec_recEnc_of_wellFormed hs hwf).symm.trans ht
    have hback := unpackRecord_packRecord hwf
    exact ⟨_, exec_recDec_of_wellFormed hu (hback.symm ▸ hwf), congrArg Descriptor.bytes hback, rfl⟩
  · intro r s t u hs ht he hu
    have hwf := wellFormed_of_recDec_success hs ht he
    cases (exec_recDec_of_wellFormed hs hwf).symm.trans ht
    exact ⟨_, exec_recEnc_of_wellFormed hu hwf, congrArg Record.bytes (packRecord_unpackRecord r), rfl⟩

/-- Settles O33, by the branches of the descriptor check. -/
theorem recEncPacksADescriptor : Obligations.RecEncPacksADescriptor := by
  refine ⟨decode_encode .recEnc, raisesReservedField_of_usingNoField (by decide), fun s d hd => ⟨fun hwf => ?_,
    fun hc => ?_, fun hc hl => ?_, fun hc hl hwf => ?_⟩, fun s => exec_recEnc_of_length⟩
  · rw [← packRecord_bytes hwf]
    exact exec_recEnc_of_wellFormed hd hwf
  · exact exec_recEnc_of_check hd (checkDescriptor_of_colorMode _ hc)
  · exact exec_recEnc_of_check hd (checkDescriptor_of_ledMode _ hc hl)
  · exact exec_recEnc_of_check hd (checkDescriptor_of_channel _ hc hl hwf)

/-- Settles O34, by the branches of the descriptor check that an unpacked record can take. -/
theorem recDecUnpacksARecord : Obligations.RecDecUnpacksARecord := by
  refine ⟨decode_encode .recDec, raisesReservedField_of_usingNoField (by decide), fun s r hr => ?_,
    fun s => exec_recDec_of_length⟩
  rw [← unpackRecord_eq]
  refine ⟨fun hc hl => exec_recDec_of_wellFormed hr ((unpackRecord_wellFormed_iff r).mpr ⟨hc, hl⟩), ?_⟩
  rw [← unpackRecord_colorMode_toNat, ← unpackRecord_ledMode_toNat]
  exact ⟨fun hc => exec_recDec_of_check hr (checkDescriptor_of_colorMode _ hc),
    fun hc hl => exec_recDec_of_check hr (checkDescriptor_of_ledMode _ hc hl)⟩

end Sys2Proof.Proofs
end

section
/-! SUPPORT. The checksum (42_checksum.md): a byte's eight rounds are the bit-serial engine's, no round loses a bit of
the accumulator, and the outcomes of the CRC commands. -/

namespace Sys2Proof.Proofs

open Sys2Proof Sys2Proof.Machine

/-! One byte bit by bit (R140), and a sequence byte by byte (R141). -/

/-- `n` rounds on the accumulator XORed with a byte are `n` bits of the serial engine, with the byte's other bits still
to come. -/
theorem crcShift_xor (n : Nat) (acc : Crc) (b : Byte) :
    crcShift 0xA001#16 n (acc ^^^ b.setWidth 16) = bitSerial n acc b ^^^ (b >>> n).setWidth 16 := by
  induction n generalizing acc b with
  | zero => rfl
  | succ n ih =>
    have hbit : (acc ^^^ b.setWidth 16).getLsbD 0 = (acc.getLsbD 0 ^^ b.getLsbD 0) := by simp
    have hshift : (acc ^^^ b.setWidth 16) >>> 1 = acc >>> 1 ^^^ (b >>> 1).setWidth 16 := by
      rw [BitVec.ushiftRight_xor_distrib, BitVec.setWidth_ushiftRight (by decide)]
    rw [crcShift, bitSerial, hbit, hshift, Nat.add_comm n 1, BitVec.shiftRight_add, ← ih]
    split
    · rw [BitVec.xor_assoc, BitVec.xor_comm _ 0xA001#16, ← BitVec.xor_assoc]
    · rfl

/-- After eight rounds no bit of the byte is left. -/
theorem crc16Step_eq_bitSerial (acc : Crc) (b : Byte) : crc16Step Config.hardware acc b = bitSerial 8 acc b := by
  have hspent : b >>> 8 = 0#8 := BitVec.ushiftRight_eq_zero (Nat.le_refl 8)
  have h := crcShift_xor 8 acc b
  rwa [hspent, BitVec.setWidth_zero, BitVec.xor_zero] at h

theorem crc16From_eq_foldl (cfg : Config) (acc : Crc) (bytes : List Byte) :
    crc16From cfg acc bytes = bytes.foldl (crc16Step cfg) acc := by
  induction bytes generalizing acc with
  | nil => rfl
  | cons b bs ih => exact ih _

theorem crc16From_append (cfg : Config) (acc : Crc) (bytes bytes' : List Byte) :
    crc16From cfg acc (bytes ++ bytes') = crc16From cfg (crc16From cfg acc bytes) bytes' := by
  simp only [crc16From_eq_foldl, List.foldl_append]

/-- Settles O43, byte by byte. -/
theorem checksumEqualsTheBitSerialEngine : Obligations.ChecksumEqualsTheBitSerialEngine := by
  intro bytes
  rw [crc16, crc16From_eq_foldl, funext₂ crc16Step_eq_bitSerial]
  rfl

/-! No round loses a bit of the accumulator (R148). -/

/-- The top bit of `CRC_POLY` marks whether it was XORed in: after a round, the top bit is the bit shifted out. -/
theorem crcShift_one_top (acc : Crc) : (crcShift 0xA001#16 1 acc).getLsbD 15 = acc.getLsbD 0 := by
  have htop : (acc >>> 1).getLsbD 15 = false := by simp
  have hpoly : (0xA001#16).getLsbD 15 = true := rfl
  rw [crcShift, crcShift]
  split
  · next h => rw [BitVec.getLsbD_xor, htop, hpoly, h]; rfl
  · next h => rw [htop, Bool.eq_false_of_not_eq_true h]

/-- A value is its low bit and the bits above it. -/
theorem crc_ext {acc acc' : Crc} (hlow : acc.getLsbD 0 = acc'.getLsbD 0) (hhigh : acc >>> 1 = acc' >>> 1) :
    acc = acc' := by
  apply BitVec.eq_of_getLsbD_eq
  rintro (_ | i) _
  · exact hlow
  · simpa [Nat.add_comm] using congrArg (·.getLsbD i) hhigh

/-- A round's result tells the bit shifted out, and so whether to undo the XOR. -/
theorem crcShift_one_injective : Function.Injective (crcShift 0xA001#16 1) := by
  intro acc acc' h
  have hlow : acc.getLsbD 0 = acc'.getLsbD 0 := by rw [← crcShift_one_top acc, h, crcShift_one_top acc']
  refine crc_ext hlow ?_
  simp only [crcShift, hlow] at h
  split at h
  · exact (BitVec.xor_left_inj _).mp h
  · exact h

theorem crcShift_injective (n : Nat) : Function.Injective (crcShift 0xA001#16 n) := by
  induction n with
  | zero => exact Function.injective_id
  | succ n ih => exact ih.comp crcShift_one_injective

/-- For one byte, different accumulators stay different. -/
theorem crc16Step_injective (b : Byte) : Function.Injective fun acc => crc16Step Config.hardware acc b :=
  fun _ _ h => (BitVec.xor_left_inj _).mp (crcShift_injective 8 h)

/-- From one accumulator, different bytes give different ones. -/
theorem crc16Step_injective_byte (acc : Crc) : Function.Injective (crc16Step Config.hardware acc) := by
  intro b b' h
  have hwide : b.setWidth 16 = b'.setWidth 16 := (BitVec.xor_right_inj _).mp (crcShift_injective 8 h)
  simpa using congrArg (BitVec.setWidth 8) hwide

theorem crc16From_injective (bytes : List Byte) :
    Function.Injective fun acc => crc16From Config.hardware acc bytes := by
  induction bytes with
  | nil => exact Function.injective_id
  | cons b bs ih => exact fun _ _ h => crc16Step_injective b (ih h)

/-- One changed byte changes the checksum: the accumulators differ after it, and stay different. -/
theorem crc16_ne_of_changed_byte (before after : List Byte) {b b' : Byte} (h : b ≠ b') :
    crc16 Config.hardware (before ++ b :: after) ≠ crc16 Config.hardware (before ++ b' :: after) := by
  intro heq
  rw [crc16, crc16, crc16From_append, crc16From_append] at heq
  exact h (crc16Step_injective_byte _ (crc16From_injective after heq))

/-- Settles O42: R142's span ends before a byte that stands after its 3(n+1) bytes. -/
theorem checksumDetectsAnyChangedByte : Obligations.ChecksumDetectsAnyChangedByte := by
  refine ⟨fun before after b b' => crc16_ne_of_changed_byte before after, fun n before after b b' h => ?_⟩
  rw [frameChecksum, frameChecksum, List.take_append_of_le_length h, List.take_append_of_le_length h]

/-- Settles O41, by evaluation of the engine on the seven sequences. -/
theorem checksumHasTheCatalogueCheckValue : Obligations.ChecksumHasTheCatalogueCheckValue := by
  unfold Obligations.ChecksumHasTheCatalogueCheckValue
  decide +kernel

/-! The outcomes of the CRC commands (R143 to R146). -/

/-- A command whose check of DIN fails raises DATA_LEN. -/
theorem dataLen_of_check {p : Prop} [Decidable p] {s : State} (hp : p) (r : Result) :
    (if p then raise .dataLen s else r) = .next (afterError s 1 0x06 0xFF s.status.mtch) :=
  (if_pos hp).trans (raise_eq .dataLen s)

theorem exec_crcSpan {s : State} {c : Byte} (h : 3 * (c.toNat + 1) ≤ s.din.length) :
    exec (.crcSpan c) s =
      .next (afterSuccess s (frameChecksum Config.hardware c.toNat s.din) s.fbuf s.status.mtch
        (crcBytes (frameChecksum Config.hardware c.toNat s.din))) :=
  (if_neg (Nat.not_lt.mpr h)).trans (complete_eq _ _)

/-- The frame checksum of a region that begins with its span. -/
theorem frameChecksum_span (cfg : Config) {n : Nat} {span : List Byte} (rest : List Byte)
    (h : span.length = 3 * (n + 1)) : frameChecksum cfg n (span ++ rest) = crc16 cfg span := by
  rw [frameChecksum, ← h, List.take_left]

/-- Settles O37. -/
theorem crcInitLoadsTheSeed : Obligations.CrcInitLoadsTheSeed :=
  ⟨decode_encode .crcInit, raisesReservedField_of_usingNoField (by decide),
    fun _ => ⟨exec_crcInit, fun h => dataLen_of_check (mt List.length_eq_zero_iff.mp h) _⟩⟩

/-- Settles O38. -/
theorem crcByteAdvancesTheAccumulator : Obligations.CrcByteAdvancesTheAccumulator := by
  intro b s
  rw [← crc16Step_eq_bitSerial]
  refine ⟨decode_ofNat ?_, raisesReservedField_of_usingA (by decide), exec_crcByte b,
    fun h => dataLen_of_check (mt List.length_eq_zero_iff.mp h) _⟩
  simp [encode, commandWord_toNat]

/-- Settles O39. -/
theorem crcReadReturnsTheAccumulator : Obligations.CrcReadReturnsTheAccumulator := by
  refine ⟨decode_encode .crcRead, raisesReservedField_of_usingNoField (by decide), fun s => ?_⟩
  rw [← crcBytes_eq]
  exact emptyDin_outcome s (crcBytes s.crcAcc)

/-- Settles O40. -/
theorem crcSpanChecksumsTheSpan : Obligations.CrcSpanChecksumsTheSpan := by
  intro c s
  refine ⟨decode_ofNat ?_, raisesReservedField_of_usingA (by decide), fun span rest hs hlen => ?_,
    fun h => dataLen_of_check h _⟩
  · simp [encode, commandWord_toNat]
  · have hfit : 3 * (c.toNat + 1) ≤ s.din.length := by rw [hs, List.length_append]; omega
    rw [← crcBytes_eq, exec_crcSpan hfit, hs, frameChecksum_span _ rest hlen]

end Sys2Proof.Proofs
end

section
/-! SUPPORT. The checksum that FRM.BUILD leaves in CRC_ACC (42_checksum.md R142, 43_frame.md R160). -/

namespace Sys2Proof.Proofs

open Sys2Proof Sys2Proof.Machine

/-- FRM.BUILD of at most 16 well-formed descriptors. -/
theorem exec_frmBuild {s : State} {ds : List Descriptor} (nonce0 nonce1 : Byte) (hlen : ds.length ≤ 16)
    (hwf : ∀ d ∈ ds, d.wellFormed = true) (hs : s.din = ds.flatMap Descriptor.bytes) :
    exec (.frmBuild (BitVec.ofNat 8 ds.length) nonce0 nonce1) s =
      .next (afterSuccess s (checksumOf nonce0 nonce1 ds)
        (s.fbuf.writeBytes 0 (paddedFrame (BitVec.ofNat 8 ds.length) (regionOf nonce0 nonce1 ds))) s.status.mtch
        []) := by
  have hn : (BitVec.ofNat 8 ds.length).toNat = ds.length := by rw [BitVec.toNat_ofNat]; omega
  have hdin : s.din.length = 9 * ds.length := by
    rw [hs, List.length_flatMap]
    simp [Nat.mul_comm]
  have hrecs : encodeRecords 0 (descriptorsOf s.din) = .ok (ds.flatMap recordValue) := by
    rw [hs, descriptorsOf_flatMap, encodeRecords_ok ds 0 hwf]
    exact congrArg Except.ok (List.flatMap_congr fun d hd => packRecord_bytes (hwf d hd))
  refine (execFrmBuild_eq _ _ _ _).trans ?_
  rw [if_neg (by omega), if_neg (by omega), hrecs, hn]
  exact complete_eq _ _

/-- Such a FRM.BUILD leaves the frame checksum in CRC_ACC. -/
theorem frmBuild_crcAcc {s t : State} {ds : List Descriptor} {nonce0 nonce1 : Byte} (hlen : ds.length ≤ 16)
    (hwf : ∀ d ∈ ds, d.wellFormed = true) (hs : s.din = ds.flatMap Descriptor.bytes)
    (ht : exec (.frmBuild (BitVec.ofNat 8 ds.length) nonce0 nonce1) s = .next t) :
    t.crcAcc = checksumOf nonce0 nonce1 ds := by
  cases (exec_frmBuild nonce0 nonce1 hlen hwf hs).symm.trans ht
  rfl

/-- The span of a region of n records: nonce, count and the first 3n record bytes. -/
theorem regionOf_take (nonce0 nonce1 : Byte) (ds : List Descriptor) :
    (regionOf nonce0 nonce1 ds).take (3 * (ds.length + 1)) =
      nonce0 :: nonce1 :: BitVec.ofNat 8 ds.length :: (ds.flatMap recordValue).take (3 * ds.length) := rfl

/-- The two modes stand from bit 18 of the group on, above its two low bytes. -/
theorem recordValue_take_eq {d d' : Descriptor} (hled : d.ledId = d'.ledId) (h1 : d.color1 = d'.color1)
    (h2 : d.color2 = d'.color2) : (recordValue d).take 3 = (recordValue d').take 3 := by
  have hlow : BitVec.ofNat 8 (groupValue d) = BitVec.ofNat 8 (groupValue d') := by
    apply BitVec.eq_of_toNat_eq
    simp only [BitVec.toNat_ofNat, groupValue, h1, h2]
    omega
  have hmid : BitVec.ofNat 8 (groupValue d / 2 ^ 8) = BitVec.ofNat 8 (groupValue d' / 2 ^ 8) := by
    apply BitVec.eq_of_toNat_eq
    simp only [BitVec.toNat_ofNat, groupValue, h1, h2]
    omega
  simp only [recordValue, List.take_succ_cons, List.take_zero, hled, hlow, hmid]

/-- Settles O52: FRM.BUILD leaves the checksum of the region's span in CRC_ACC. -/
theorem frameChecksumCoversTheTruncatedSpan : Obligations.FrameChecksumCoversTheTruncatedSpan := by
  refine ⟨?_, ?_, fun d d' _ _ hled h1 h2 => ?_⟩
  · intro s s' t t' nonce0 nonce1 nonce0' nonce1' ds ds' before after b b' hlen hlen' hwf hwf' hspan hspan' hne hs hs'
      ht ht'
    rw [← hlen'] at ht' hspan'
    rw [frmBuild_crcAcc hlen hwf hs ht, frmBuild_crcAcc (hlen' ▸ hlen) hwf' hs' ht', checksumOf, checksumOf, hspan,
      hspan']
    exact crc16_ne_of_changed_byte before after hne
  · intro s s' t t' nonce0 nonce1 ds ds' hlen hlen' hwf hwf' hrecs hs hs' ht ht'
    rw [← hlen'] at ht'
    rw [frmBuild_crcAcc hlen hwf hs ht, frmBuild_crcAcc (hlen' ▸ hlen) hwf' hs' ht', checksumOf, checksumOf,
      regionOf_take, regionOf_take, hlen', hrecs]
  · simpa using recordValue_take_eq hled h1 h2

end Sys2Proof.Proofs
end

section
/-! SUPPORT. The framer (43_frame.md): how FRM.BUILD and FRM.PARSE end, the bytes that a frame leaves in FBUF and that
FRM.PARSE reads there, and the way of a frame through FBUF, on one block and across two. -/

namespace Sys2Proof.Proofs

open Sys2Proof Sys2Proof.Machine

/-- A number below 256 is not cut to its byte. -/
theorem ofNat_toNat_of_lt {n : Nat} (h : n < 256) : (BitVec.ofNat 8 n).toNat = n :=
  (BitVec.toNat_ofNat n 8).trans (Nat.mod_eq_of_lt h)

/-! Byte sequences of FBUF. -/

/-- A multi-byte read sees only the offsets it names. -/
theorem readBytes_congr {m m' : Memory} {a n : Nat} (h : ∀ x, a ≤ x → x < a + n → m.read x = m'.read x) :
    m.readBytes a n = m'.readBytes a n := by
  apply List.ext_getElem
  · simp
  · intro i hi hi'
    rw [length_readBytes] at hi
    rw [getElem_readBytes, getElem_readBytes, h (a + i) (by omega) (by omega)]

/-- A multi-byte read, byte by byte. -/
theorem getD_readBytes {m : Memory} {a n i : Nat} (h : i < n) : (m.readBytes a n).getD i 0#8 = m.read (a + i) := by
  rw [List.getD_eq_getElem _ _ (by simpa using h), getElem_readBytes]

theorem readBytes_add (m : Memory) (a n k : Nat) :
    m.readBytes a (n + k) = m.readBytes a n ++ m.readBytes (a + n) k := by
  induction n generalizing a with
  | zero => simp [Memory.readBytes]
  | succ n ih => rw [Nat.add_right_comm, Memory.readBytes, ih, Nat.add_right_comm a 1 n, ← Nat.add_assoc]; rfl

/-- The first `k` records of the frame in a buffer stand one after another from offset 8 on (R41). -/
theorem readBytes_records (m : Memory) (k : Nat) :
    m.readBytes 8 (4 * k) = ((List.range k).map (recordAt m)).flatMap Record.bytes := by
  induction k with
  | zero => rfl
  | succ k ih =>
    have hrecord : m.readBytes (8 + 4 * k) 4 = (recordAt m k).bytes := by
      simp [Memory.readBytes, recordAt, Record.bytes, Nat.add_right_comm]
    rw [Nat.mul_succ, readBytes_add, ih, hrecord, List.range_succ]
    simp

/-- Zeros after a byte sequence change no byte of it, where what is past its end reads as 0x00. -/
theorem getD_append_zeros (l : List Byte) (k a : Nat) : (l ++ zeros k).getD a 0#8 = l.getD a 0#8 := by
  rcases Nat.lt_or_ge a l.length with h | h
  · exact List.getD_append _ _ _ _ h
  · rw [List.getD_append_right _ _ _ _ h, List.getD_eq_default l _ h, zeros]
    simp

theorem holdsOpcode_iff (m : Memory) : holdsOpcode m = true ↔ m.readBytes 0 3 = Config.hardware.frameOpcode := by
  simp [holdsOpcode, Memory.readBytes, Config.hardware, and_assoc]

/-! The errors of a descriptor or record in a sequence: its number is INDEX (R122, R203). -/

/-- An error of the descriptor check, with the index that the check was given. -/
theorem raise_of_checkDescriptor {d : Descriptor} {i : Nat} {e : CmdError} (hi : i < 256) (s : State)
    (he : checkDescriptor d (BitVec.ofNat 8 i) = some e) :
    raise e s = .next (afterError s 1 e.cause.toNat i s.status.mtch) := by
  obtain ⟨hclass, hindex⟩ : e.errClass = .format ∧ e.index = BitVec.ofNat 8 i := by
    rcases checkDescriptor_cases d (BitVec.ofNat 8 i) with ⟨h, _⟩ | ⟨_, h | h | ⟨h, _⟩⟩ <;>
      rw [h] at he <;> cases he <;> exact ⟨rfl, rfl⟩
  rw [raise_eq, hclass, hindex, ofNat_toNat_of_lt hi]
  rfl

/-! The errors of FRM.BUILD (R160, R164). -/

theorem length_flatMap_bytes (ds : List Descriptor) : (ds.flatMap Descriptor.bytes).length = 9 * ds.length := by
  simp [List.length_flatMap, Nat.mul_comm]

theorem exec_frmBuild_of_count {s : State} {n : Byte} (nonce0 nonce1 : Byte) (hn : n.toNat > 16) :
    exec (.frmBuild n nonce0 nonce1) s = .next (afterError s 2 0x01 0xFF s.status.mtch) :=
  (execFrmBuild_eq _ _ _ _).trans ((if_pos hn).trans (raise_eq .count s))

theorem exec_frmBuild_of_length {s : State} {n : Byte} (nonce0 nonce1 : Byte) (hn : n.toNat ≤ 16)
    (hl : s.din.length ≠ 9 * n.toNat) :
    exec (.frmBuild n nonce0 nonce1) s = .next (afterError s 1 0x06 0xFF s.status.mtch) :=
  (execFrmBuild_eq _ _ _ _).trans ((if_neg (Nat.not_lt.mpr hn)).trans (dataLen_of_check hl _))

/-- The first descriptor that fails its check ends FRM.BUILD, with its number as INDEX. -/
theorem exec_frmBuild_of_check {s : State} {n : Byte} {good more : List Descriptor} {d : Descriptor} {e : CmdError}
    (nonce0 nonce1 : Byte) (hn : n.toNat ≤ 16) (hlen : good.length + 1 + more.length = n.toNat)
    (hs : s.din = (good ++ d :: more).flatMap Descriptor.bytes) (hgood : ∀ g ∈ good, g.wellFormed = true)
    (he : checkDescriptor d (BitVec.ofNat 8 good.length) = some e) :
    exec (.frmBuild n nonce0 nonce1) s = .next (afterError s 1 e.cause.toNat good.length s.status.mtch) := by
  have hdin : ¬s.din.length ≠ 9 * n.toNat := by
    rw [hs, length_flatMap_bytes, List.length_append, List.length_cons]
    omega
  have hfirst : encodeRecords 0 (good ++ d :: more) = .error e :=
    encodeRecords_first good d more 0 e hgood (by rwa [Nat.zero_add])
  refine (execFrmBuild_eq _ _ _ _).trans ?_
  rw [if_neg (Nat.not_lt.mpr hn), if_neg hdin, hs, descriptorsOf_flatMap, hfirst]
  exact raise_of_checkDescriptor (by omega) s he

/-! The outcomes of FRM.PARSE once the opcode has matched (R162). -/

/-- FRM.PARSE on a matching opcode: MATCH is set, whatever the checks of the count and the records find. -/
theorem exec_frmParse_matched {s : State} (hd : s.din = []) (hop : holdsOpcode s.fbuf = true) :
    exec .frmParse s =
      if (s.fbuf.read 7).toNat > 16 then raise .parseCount { s with status := { s.status with mtch := true } }
      else
        match decodeRecords 0 (recordsOf (s.fbuf.readBytes 8 (4 * (s.fbuf.read 7).toNat))) with
        | .error e => raise e { s with status := { s.status with mtch := true } }
        | .ok ds => complete (s.fbuf.read 7 :: ds) { s with status := { s.status with mtch := true } } :=
  (execFrmParse_eq s).trans ((if_neg (by simp [hd])).trans (if_pos ((holdsOpcode_iff _).mp hop)))

theorem exec_frmParse_of_count {s : State} (hd : s.din = []) (hop : holdsOpcode s.fbuf = true)
    (hk : (s.fbuf.read 7).toNat > 16) : exec .frmParse s = .next (afterError s 1 0x07 0xFF true) := by
  rw [exec_frmParse_matched hd hop, if_pos hk]
  exact raise_eq _ _

/-- Records with legal ordinals in the frame: DOUT is the count and their descriptors. -/
theorem exec_frmParse_of_wellFormed {s : State} {rs : List Record} (hd : s.din = []) (hop : holdsOpcode s.fbuf = true)
    (hk : (s.fbuf.read 7).toNat ≤ 16) (hrs : s.fbuf.readBytes 8 (4 * (s.fbuf.read 7).toNat) = rs.flatMap Record.bytes)
    (hwf : ∀ r ∈ rs, (unpackRecord r).wellFormed = true) :
    exec .frmParse s = .next (afterSuccess s s.crcAcc s.fbuf true
      (s.fbuf.read 7 :: rs.flatMap fun r => (unpackRecord r).bytes)) := by
  rw [exec_frmParse_matched hd hop, if_neg (Nat.not_lt.mpr hk), hrs, recordsOf_flatMap, decodeRecords_ok rs 0 hwf]
  exact complete_eq _ _

/-- The first record that fails its check ends FRM.PARSE, with its number as INDEX. -/
theorem exec_frmParse_of_check {s : State} {i : Nat} {e : CmdError} (hd : s.din = [])
    (hop : holdsOpcode s.fbuf = true) (hi : i < (s.fbuf.read 7).toNat) (hk : (s.fbuf.read 7).toNat ≤ 16)
    (hgood : ∀ j < i, (unpackRecord (recordAt s.fbuf j)).wellFormed = true)
    (he : checkDescriptor (unpackRecord (recordAt s.fbuf i)) (BitVec.ofNat 8 i) = some e) :
    exec .frmParse s = .next (afterError s 1 e.cause.toNat i true) := by
  obtain ⟨more, hmore⟩ := Nat.exists_eq_add_of_lt hi
  have hrange : (List.range (s.fbuf.read 7).toNat).map (recordAt s.fbuf) =
      (List.range i).map (recordAt s.fbuf) ++ recordAt s.fbuf i ::
        (List.range more).map fun j => recordAt s.fbuf (i + 1 + j) := by
    rw [hmore, Nat.add_right_comm, List.range_add, List.range_succ]
    simp [Function.comp_def]
  have hfirst : decodeRecords 0 ((List.range (s.fbuf.read 7).toNat).map (recordAt s.fbuf)) = .error e := by
    rw [hrange]
    exact decodeRecords_first _ _ _ 0 e (by simpa using hgood) (by simpa using he)
  rw [exec_frmParse_matched hd hop, if_neg (Nat.not_lt.mpr hk), readBytes_records, recordsOf_flatMap, hfirst]
  exact raise_of_checkDescriptor (by omega) _ he

/-- In any legal configuration, records that run past the report end FRM.PARSE. -/
theorem frmParse_of_past_report {cfg : Config} {s : State} (hcfg : cfg.wellFormed = true) (hd : s.din = [])
    (hop : [s.fbuf.read 0, s.fbuf.read 1, s.fbuf.read 2] = cfg.frameOpcode)
    (hk : 8 + 4 * (s.fbuf.read 7).toNat > cfg.reportLen) : frmParse cfg s = .next (afterError s 1 0x07 0xFF true) := by
  have hl : 8 ≤ cfg.reportLen := by
    simp only [Config.wellFormed, Bool.and_eq_true, decide_eq_true_eq] at hcfg
    exact hcfg.1
  have hopcode : memRead cfg s.fbuf 0 3 = some cfg.frameOpcode := memRead_eq_some.mpr ⟨by omega, hop⟩
  have hcount : memRead cfg s.fbuf 7 1 = some [s.fbuf.read 7] := memRead_eq_some.mpr ⟨hl, rfl⟩
  rw [frmParse, if_neg (by simp [hd]), hopcode]
  dsimp only
  rw [if_pos rfl, parseRecords, hcount]
  dsimp only
  rw [if_pos (.inr hk)]
  exact raise_eq _ _

/-- FRM.PARSE sees of FBUF the opcode, the count and the records that the count covers. -/
theorem exec_frmParse_alike {s s' : State} (hd : s.din = s'.din)
    (hop : s.fbuf.readBytes 0 3 = s'.fbuf.readBytes 0 3) (hk : s.fbuf.read 7 = s'.fbuf.read 7)
    (hrs : s.fbuf.readBytes 8 (4 * (s'.fbuf.read 7).toNat) = s'.fbuf.readBytes 8 (4 * (s'.fbuf.read 7).toNat)) :
    EndAlike .frmParse s s' (exec .frmParse s) (exec .frmParse s') := by
  show EndAlike .frmParse s s' (execFrmParse s) (execFrmParse s')
  rw [execFrmParse_eq, execFrmParse_eq, hd, hop, hk, hrs]
  split
  · exact .raised _
  split
  · split
    · exact .error _ (some true)
    cases decodeRecords 0 (recordsOf (s'.fbuf.readBytes 8 (4 * (s'.fbuf.read 7).toNat))) with
    | error e => exact .error e (some true)
    | ok ds => exact .success none [] (some true) _
  · exact .success none [] (some false) _

/-! The frame as bytes (R41, R42), and its way through FBUF (R47, R163). -/

/-- The unpadded frame of at most 255 descriptors, written out. -/
theorem frameOf_regionOf (nonce0 nonce1 : Byte) {ds : List Descriptor} (hlen : ds.length < 256) :
    frameOf Config.hardware (BitVec.ofNat 8 ds.length) (regionOf nonce0 nonce1 ds) = frameBytes nonce0 nonce1 ds := by
  rw [frameOf, ofNat_toNat_of_lt hlen, crcBytes_eq]
  rfl

theorem length_flatMap_recordValue (ds : List Descriptor) : (ds.flatMap recordValue).length = 4 * ds.length := by
  simp [List.length_flatMap, recordValue, Nat.mul_comm]

/-- Every byte of FBUF is the frame's, 0x00 after its end. -/
def HoldsFrame (m : Memory) (nonce0 nonce1 : Byte) (ds : List Descriptor) : Prop :=
  ∀ a < 129, m.read a = (frameBytes nonce0 nonce1 ds).getD a 0x00#8

/-- What FRM.BUILD's write leaves at every offset. -/
theorem read_writeBytes_paddedFrame {m : Memory} (hm : m.wf = true) (nonce0 nonce1 : Byte) {ds : List Descriptor}
    (hlen : ds.length ≤ 16) (a : Nat) :
    (m.writeBytes 0 (paddedFrame (BitVec.ofNat 8 ds.length) (regionOf nonce0 nonce1 ds))).read a =
      if a < 129 then (frameBytes nonce0 nonce1 ds).getD a 0x00#8 else m.read a := by
  have hfit : (regionOf nonce0 nonce1 ds).length ≤ 124 := by
    simp only [regionOf, List.length_cons, length_flatMap_recordValue]
    omega
  rw [read_writeBytes _ m hm, length_paddedFrame _ _ hfit, paddedFrame, getD_append_zeros,
    frameOf_regionOf nonce0 nonce1 (by omega)]
  simp

theorem exec_fbRead {s : State} (hs : s.din = []) :
    exec .fbRead s = .next (afterSuccess s s.crcAcc s.fbuf s.status.mtch (s.fbuf.readBytes 0 129)) :=
  (execFbRead_eq s).trans ((emptyDin_outcome s _).1 hs)

/-- FRM.BUILD leaves the frame of its descriptors in FBUF. -/
theorem exec_frmBuild_holdsFrame {s : State} {ds : List Descriptor} (nonce0 nonce1 : Byte) (hm : s.fbuf.wf = true)
    (hlen : ds.length ≤ 16) (hwf : ∀ d ∈ ds, d.wellFormed = true) (hs : s.din = ds.flatMap Descriptor.bytes) :
    ∃ t, exec (.frmBuild (BitVec.ofNat 8 ds.length) nonce0 nonce1) s = .next t ∧
      HoldsFrame t.fbuf nonce0 nonce1 ds :=
  ⟨_, exec_frmBuild nonce0 nonce1 hlen hwf hs,
    fun a ha => (read_writeBytes_paddedFrame hm nonce0 nonce1 hlen a).trans (if_pos ha)⟩

/-- FB.LOAD of the report read from a buffer carries the buffer's frame over. -/
theorem HoldsFrame.exec_fbLoad {m : Memory} {s : State} {nonce0 nonce1 : Byte} {ds : List Descriptor}
    (h : HoldsFrame m nonce0 nonce1 ds) (hm : s.fbuf.wf = true) (hs : s.din = m.readBytes 0 129) :
    ∃ t, exec .fbLoad s = .next t ∧ HoldsFrame t.fbuf nonce0 nonce1 ds := by
  have hl : s.din.length = 129 := by rw [hs, length_readBytes]
  refine ⟨_, (execFbLoad_eq s).trans ((if_neg (not_not.mpr hl)).trans (complete_eq _ _)), fun a ha => ?_⟩
  rw [afterSuccess_fbuf, read_writeBytes _ _ hm, if_pos ⟨Nat.zero_le a, by omega⟩, hs, Nat.sub_zero,
    getD_readBytes ha, Nat.zero_add, h a ha]

theorem HoldsFrame.opcode {m : Memory} {nonce0 nonce1 : Byte} {ds : List Descriptor}
    (h : HoldsFrame m nonce0 nonce1 ds) : holdsOpcode m = true := by
  rw [holdsOpcode, h 0 (by omega), h 1 (by omega), h 2 (by omega)]
  rfl

theorem HoldsFrame.count {m : Memory} {nonce0 nonce1 : Byte} {ds : List Descriptor}
    (h : HoldsFrame m nonce0 nonce1 ds) : m.read 7 = BitVec.ofNat 8 ds.length :=
  h 7 (by omega)

theorem HoldsFrame.records {m : Memory} {nonce0 nonce1 : Byte} {ds : List Descriptor}
    (h : HoldsFrame m nonce0 nonce1 ds) (hlen : ds.length ≤ 16) (hwf : ∀ d ∈ ds, d.wellFormed = true) :
    m.readBytes 8 (4 * ds.length) = (ds.map packRecord).flatMap Record.bytes := by
  have hvalues : m.readBytes 8 (4 * ds.length) = ds.flatMap recordValue :=
    readBytes_eq (length_flatMap_recordValue ds) fun i hi => by rw [h (8 + i) (by omega), Nat.add_comm]; rfl
  rw [hvalues, List.flatMap_map]
  exact List.flatMap_congr fun d hd => (packRecord_bytes (hwf d hd)).symm

/-- FRM.PARSE of a frame returns the descriptors it was built of, since unpacking undoes packing (R70). -/
theorem HoldsFrame.exec_frmParse {s : State} {nonce0 nonce1 : Byte} {ds : List Descriptor}
    (h : HoldsFrame s.fbuf nonce0 nonce1 ds) (hd : s.din = []) (hlen : ds.length ≤ 16)
    (hwf : ∀ d ∈ ds, d.wellFormed = true) :
    exec .frmParse s = .next (afterSuccess s s.crcAcc s.fbuf true
      (BitVec.ofNat 8 ds.length :: ds.flatMap Descriptor.bytes)) := by
  have hk : (s.fbuf.read 7).toNat = ds.length := by rw [h.count, ofNat_toNat_of_lt (by omega)]
  have hback : ∀ d ∈ ds, unpackRecord (packRecord d) = d := fun d hd => unpackRecord_packRecord (hwf d hd)
  have hlegal : ∀ r ∈ ds.map packRecord, (unpackRecord r).wellFormed = true :=
    List.forall_mem_map.mpr fun d hd => by rw [hback d hd, hwf d hd]
  have hbytes : ((ds.map packRecord).flatMap fun r => (unpackRecord r).bytes) = ds.flatMap Descriptor.bytes := by
    rw [List.flatMap_map]
    exact List.flatMap_congr fun d hd => by rw [hback d hd]
  rw [exec_frmParse_of_wellFormed hd h.opcode (by omega) (hk ▸ h.records hlen hwf) hlegal, h.count, hbytes]

/-! Runs of two commands. -/

/-- After the first of two commands the second stands at the port. -/
theorem din_after_first {s t : State} {host : Nat} {i j : Instr} {din din' : List Byte}
    (ht : exec i (s.withCommands [issue host i din, issue host j din']) = .next t) : t.din = din' :=
  din_of_command (exec_input ht)

theorem run_two {s t u : State} {host : Nat} {i j : Instr} {din din' : List Byte}
    (ht : exec i (s.withCommands [issue host i din, issue host j din']) = .next t) (hu : exec j t = .next u) :
    Host.Core.run core 2 (s.withCommands [issue host i din, issue host j din']) = .next u :=
  (run_issue rfl ht).trans (run_issue (exec_input ht) hu)

/-! The statements. -/

/-- Settles O45: the bytes written are the frame and zeros, 129 together. -/
theorem frmBuildWritesThePaddedFrame : Obligations.FrmBuildWritesThePaddedFrame :=
  fun _ nonce0 nonce1 _ hm hlen hwf hs =>
    ⟨_, exec_frmBuild nonce0 nonce1 hlen hwf hs, read_writeBytes_paddedFrame hm nonce0 nonce1 hlen⟩

/-- Settles O46: each clause by the check that fails. -/
theorem frmBuildReportsTheFirstError : Obligations.FrmBuildReportsTheFirstError := by
  intro s n nonce0 nonce1
  refine ⟨exec_frmBuild_of_count nonce0 nonce1, exec_frmBuild_of_length nonce0 nonce1, ?_⟩
  intro good d more hn hlen hs hgood
  have hcheck {e : CmdError} := exec_frmBuild_of_check (e := e) nonce0 nonce1 hn hlen hs hgood
  exact ⟨fun hc => hcheck (checkDescriptor_of_colorMode _ hc), fun hc hl => hcheck (checkDescriptor_of_ledMode _ hc hl),
    fun hc hl hbad => hcheck (checkDescriptor_of_channel _ hc hl hbad)⟩

/-- Settles O47: the check of the length comes right after the count's; 8 + 4 * 16 is below 129. -/
theorem frameThatDoesNotFitRaisesFrameLen : Obligations.FrameThatDoesNotFitRaisesFrameLen := by
  refine ⟨fun cfg s n nonce0 nonce1 hn hlong => ?_, fun n hn => ?_⟩
  · exact (if_neg (Nat.not_lt.mpr hn)).trans ((if_pos hlong).trans (raise_eq .frameLen s))
  · show 8 + 4 * n.toNat ≤ 129
    omega

/-- Settles O48: the records are read one after another from offset 8 on, and each passes its check. -/
theorem frmParseReturnsTheRecords : Obligations.FrmParseReturnsTheRecords := by
  intro s hd hop hk hwf
  simp only [← unpackRecord_eq] at hwf ⊢
  rw [exec_frmParse_of_wellFormed hd hop hk (readBytes_records _ _) (by simpa using hwf), List.flatMap_map]

/-- Settles O50: each clause by the check that fails. -/
theorem frmParseReportsTheFirstError : Obligations.FrmParseReportsTheFirstError := by
  refine ⟨fun s => ⟨fun hd => ?_, fun hd hop => ⟨exec_frmParse_of_count hd hop, fun i hi hk hgood => ?_⟩⟩,
    fun cfg s hcfg hd hop _ hk => frmParse_of_past_report hcfg hd hop hk⟩
  · exact dataLen_of_check (mt List.length_eq_zero_iff.mp hd) _
  · simp only [← unpackRecord_eq] at hgood
    rw [← unpackRecord_colorMode_toNat, ← unpackRecord_ledMode_toNat]
    have hcheck {e : CmdError} := exec_frmParse_of_check (e := e) hd hop hi hk hgood
    exact ⟨fun hc => hcheck (checkDescriptor_of_colorMode _ hc),
      fun hc hl => hcheck (checkDescriptor_of_ledMode _ hc hl)⟩

/-- Settles O53: the buffers agree on the three reads that FRM.PARSE makes. -/
theorem parseIgnoresChecksumNonceAndPadding : Obligations.ParseIgnoresChecksumNonceAndPadding := by
  intro s m hop hk hrs
  have hop' : s.fbuf.readBytes 0 3 = m.readBytes 0 3 := readBytes_congr fun a _ ha => (hop a (by omega)).symm
  have hrs' : s.fbuf.readBytes 8 (4 * (m.read 7).toNat) = m.readBytes 8 (4 * (m.read 7).toNat) :=
    readBytes_congr fun a ha ha' => (hrs a ha (hk ▸ ha')).symm
  obtain ⟨t, u, ht, hu, h⟩ := (exec_frmParse_alike (s := s) (s' := { s with fbuf := m }) rfl hop' hk.symm hrs').next
  exact ⟨t, u, ht, hu, h.status rfl, h.response rfl rfl⟩

/-- Settles O51: FRM.BUILD leaves the frame in FBUF, FB.READ and FB.LOAD carry it to another block, and FRM.PARSE reads
it back on either. -/
theorem framedRecordsParseBack : Obligations.FramedRecordsParseBack := by
  intro s host nonce0 nonce1 ds hm hlen hwf
  have hbuild (next : Instr) := exec_frmBuild_holdsFrame (s := s.withCommands
    [issue host (.frmBuild (BitVec.ofNat 8 ds.length) nonce0 nonce1) (ds.flatMap Descriptor.bytes), issue host next []])
    nonce0 nonce1 hm hlen hwf rfl
  refine ⟨?_, ?_⟩
  · obtain ⟨t, ht, hframe⟩ := hbuild .frmParse
    have hparse := hframe.exec_frmParse (din_after_first ht) hlen hwf
    exact ⟨_, run_two ht hparse, rfl, rfl, rfl⟩
  · obtain ⟨t, ht, hframe⟩ := hbuild .fbRead
    have hread := exec_fbRead (din_after_first ht)
    refine ⟨_, run_two ht hread, rfl, length_readBytes _ _ _, fun u hu => ?_⟩
    obtain ⟨u', hload, hframe'⟩ :=
      hframe.exec_fbLoad (s := u.withCommands (receiveSequence host (t.fbuf.readBytes 0 129))) hu rfl
    have hparse := hframe'.exec_frmParse (din_after_first hload) hlen hwf
    exact ⟨_, run_two hload hparse, rfl, rfl, rfl⟩

end Sys2Proof.Proofs
end

section
/-! SUPPORT. The commands on the buffer and on STATUS (44_buffer_status.md): FB.LOAD, FB.READ and ST.READ. -/

namespace Sys2Proof.Proofs

open Sys2Proof Sys2Proof.Machine

/-- A multi-byte read as the reads of its offsets. -/
theorem readBytes_zero_eq_map (m : Memory) (n : Nat) : m.readBytes 0 n = (List.range n).map fun a => m.read a :=
  readBytes_eq (by simp) fun i hi => by simp [hi]

/-- The four bytes of a word as numbers, least significant first. -/
theorem wordToBytes_eq (w : Word) :
    wordToBytes w = [0, 8, 16, 24].map fun k => BitVec.ofNat 8 (w.toNat / 2 ^ k) := by
  simp [wordToBytes, opField, aField, bField, cField, BitVec.extractLsb', Nat.shiftRight_eq_div_pow]

theorem exec_fbLoad {s : State} (h : s.din.length = 129) :
    exec .fbLoad s = .next (afterSuccess s s.crcAcc (s.fbuf.writeBytes 0 s.din) s.status.mtch []) :=
  (execFbLoad_eq s).trans ((if_neg (not_not.mpr h)).trans (complete_eq _ _))

theorem exec_stRead {s : State} (h : s.din = []) : exec .stRead s = .next (s.respond (wordToBytes s.status.word)) :=
  if_neg (not_not.mpr (List.length_eq_zero_iff.mpr h))

/-- Settles O55: the bytes written are DIN, from offset 0 on. -/
theorem fbLoadStoresTheReport : Obligations.FbLoadStoresTheReport := by
  refine ⟨decode_encode .fbLoad, raisesReservedField_of_usingNoField (by decide), fun s =>
    ⟨fun hm hl => ⟨_, exec_fbLoad hl, fun a => ?_⟩, fun h => (execFbLoad_eq s).trans (dataLen_of_check h _)⟩⟩
  rw [read_writeBytes _ _ hm, hl]
  simp

/-- Settles O56. -/
theorem fbReadReturnsTheBuffer : Obligations.FbReadReturnsTheBuffer := by
  refine ⟨decode_encode .fbRead, raisesReservedField_of_usingNoField (by decide), fun s => ?_⟩
  rw [← readBytes_zero_eq_map]
  exact ⟨exec_fbRead, fun h => dataLen_of_check (mt List.length_eq_zero_iff.mp h) _⟩

/-- Settles O57. -/
theorem stReadReturnsStatusAndKeepsIt : Obligations.StReadReturnsStatusAndKeepsIt := by
  refine ⟨decode_encode .stRead, raisesReservedField_of_usingNoField (by decide), fun s => ?_⟩
  rw [← wordToBytes_eq]
  exact ⟨exec_stRead, fun h => dataLen_of_check (mt List.length_eq_zero_iff.mp h) _⟩

end Sys2Proof.Proofs
end

section
/-! SUPPORT. Errors (60_exceptions.md): the three ways a command's next state can look, and what raises DATA_LEN. -/

namespace Sys2Proof.Proofs

open Sys2Proof Sys2Proof.Machine

/-- The next states of a command: an error it may raise, a success, or ST.READ's success; only FRM.PARSE chooses
MATCH. -/
inductive EndsIn (i : Instr) (s : State) : State → Prop where
  | error (e : CmdError) (k : Bool) (he : mayRaise i e = true) (hk : i ≠ .frmParse → k = s.status.mtch) :
      EndsIn i s (afterError s e.errClass.code.toNat e.cause.toNat e.index.toNat k)
  | success (c : Crc) (m : Memory) (k : Bool) (out : List Byte) (hs : i ≠ .stRead)
      (hk : i ≠ .frmParse → k = s.status.mtch) : EndsIn i s (afterSuccess s c m k out)
  | kept (hs : i = .stRead) : EndsIn i s (s.respond (wordToBytes s.status.word))

/-- The inversion of `exec`, read off at the next state. -/
theorem exec_endsIn {i : Instr} {s t : State} (h : exec i s = .next t) : EndsIn i s t := by
  have hE := exec_ends i s
  rw [h] at hE
  generalize hr : (Host.Outcome.next t : Result) = r at hE
  cases hE with
  | error e k he hk =>
    cases hr.trans (raise_eq e _)
    exact .error e k he hk
  | success c m k out hs hc hm hw hi hk =>
    cases hr.trans (complete_eq out _)
    exact .success c m k out hs hk
  | kept hs =>
    cases hr
    exact .kept hs

/-- Settles O18: the next state's MATCH is the one FRM.PARSE alone may choose. -/
theorem onlyParseWritesMatch : Obligations.OnlyParseWritesMatch := by
  intro i s t hi h
  cases exec_endsIn h with
  | error e k he hk => exact hk hi
  | success c m k out hs hk => exact hk hi
  | kept hs => rfl

/-- Settles O17, by the next state's three forms. -/
theorem commandsRaiseOnlyTheirListedErrors : Obligations.CommandsRaiseOnlyTheirListedErrors := by
  intro i s
  obtain ⟨t, ht⟩ := exec_next i s
  cases exec_endsIn ht with
  | error e k he hk => exact .inl ⟨e, k, he, ht⟩
  | success c m k out hs hk => exact .inr (.inl ⟨hs, c, m, k, out, ht⟩)
  | kept hs => exact .inr (.inr ⟨hs, _, ht, rfl⟩)

/-- What a command other than ST.READ writes when it ends in an error. -/
theorem exec_of_failed {i : Instr} {s t : State} (h : exec i s = .next t) (hi : i ≠ .stRead)
    (he : t.status.err ≠ 0#3) :
    t.crcAcc = s.crcAcc ∧ t.fbuf = s.fbuf ∧ t.dout = [] ∧ (i ≠ .frmParse → t.status.mtch = s.status.mtch) := by
  cases exec_endsIn h with
  | error e k _ hk => exact ⟨rfl, rfl, rfl, hk⟩
  | success => exact absurd rfl he
  | kept hs => exact absurd hs hi

theorem exists_illegal_eq_raise (e : DecodeError) (s : State) : ∃ e', illegal e s = raise e' s := by
  cases e with
  | opsel => exact ⟨.opsel, rfl⟩
  | reservedField => exact ⟨.reservedField, rfl⟩
  | truncated => exact ⟨.opsel, rfl⟩

/-- Settles O16: the step is the decoded command, which failed, or raises the error of an illegal word. -/
theorem failedCommandWritesOnlyStatus : Obligations.FailedCommandWritesOnlyStatus := by
  intro s t c rest hc ht hread herr
  cases hd : decode c.cw with
  | ok i =>
    obtain ⟨hcrc, hfbuf, hdout, hmtch⟩ := exec_of_failed ((step_of_decode hc hd).symm.trans ht)
      (fun hi => hread (hi ▸ hd)) herr
    exact ⟨hcrc, hfbuf, hdout, fun hp => hmtch fun hi => hp (hi ▸ rfl)⟩
  | error e =>
    obtain ⟨e', he'⟩ := exists_illegal_eq_raise e s
    cases (he'.symm.trans (step_of_decode_error hc hd).symm).trans ht
    exact ⟨rfl, rfl, rfl, fun _ => rfl⟩

/-- Settles O23, command by command: the check of DIN comes first, but for FRM.BUILD's count. -/
theorem wrongDinLengthRaisesDataLen : Obligations.WrongDinLengthRaisesDataLen := by
  intro i s h hcount
  cases i with
  | qntHex => cases h
  | recEnc => exact exec_recEnc_of_length (beq_eq_false_iff_ne.mp h)
  | recDec => exact exec_recDec_of_length (beq_eq_false_iff_ne.mp h)
  | crcSpan c => exact dataLen_of_check (Nat.lt_of_not_le (of_decide_eq_false h)) _
  | frmBuild n x y => exact exec_frmBuild_of_length x y (hcount n x y rfl) (beq_eq_false_iff_ne.mp h)
  | qntCh _ | qntRgb _ _ _ | dqnCh _ | dqnHex _ _ _ | crcInit | crcByte _ | crcRead | frmParse | fbLoad | fbRead
  | stRead => exact dataLen_of_check (beq_eq_false_iff_ne.mp h) _

/-- Settles O49. -/
theorem opcodeMismatchIsNotAnError : Obligations.OpcodeMismatchIsNotAnError := by
  intro s hd hop
  have hne : s.fbuf.readBytes 0 3 ≠ Config.hardware.frameOpcode :=
    mt (holdsOpcode_iff s.fbuf).mpr (by simp [hop])
  exact (execFrmParse_eq s).trans ((if_neg (by simp [hd])).trans ((if_neg hne).trans (complete_eq _ _)))

end Sys2Proof.Proofs
end

section
/-! SUPPORT. Runs of steps (70_reset_and_hazards.md R234, R236): every step answers, and what no step on a port's events
changes, no run over them changes. -/

namespace Sys2Proof.Proofs

open Sys2Proof Sys2Proof.Machine

/-- Settles O10: a command's meaning answers a next state, and so does each of the other things a step can do. -/
theorem everyStepAnswersANextState : Obligations.EveryStepAnswersANextState := by
  intro s
  rcases step_cases s with ⟨-, hs⟩ | ⟨_, -, hs⟩ | ⟨_, _, i, -, -, hs⟩ | ⟨_, _, e, -, -, -, hs⟩
  · exact ⟨_, hs⟩
  · exact ⟨_, hs⟩
  · exact hs ▸ exec_next i s
  · exact ⟨_, hs⟩

/-! One event at the port. -/

/-- The event is a command, legal or not, of none of the instructions that `writes` selects. -/
def CommandWithout (writes : Instr → Bool) (e : PortEvent) : Prop :=
  ∃ c, e = .command c ∧ ∀ i, decode c.cw = .ok i → writes i = false

/-- The event is a legal ST.READ command with an empty DIN. -/
def LegalStRead (e : PortEvent) : Prop :=
  ∃ c, e = .command c ∧ decode c.cw = .ok .stRead ∧ c.din = []

/-- A step that is not a reset waits, performs a command, or raises the error of an illegal word. -/
theorem step_of_commandWithout {writes : Instr → Bool} {s t : State} (h : step s = .next t)
    (hc : ∀ e ∈ s.input.head?, CommandWithout writes e) :
    t = { s with response := none } ∨ (∃ i, writes i = false ∧ exec i s = .next t) ∨ ∃ e, raise e s = .next t := by
  rcases step_cases s with ⟨-, hs⟩ | ⟨rest, hi, -⟩ | ⟨c, rest, i, hi, hd, hs⟩ | ⟨_, _, e, -, -, -, hs⟩
  · cases hs.symm.trans h
    exact .inl rfl
  · obtain ⟨_, hreset, -⟩ := hc .reset (by simp [hi])
    cases hreset
  · obtain ⟨_, hcmd, hw⟩ := hc (.command c) (by simp [hi])
    cases hcmd
    exact .inr (.inl ⟨i, hw i hd, hs.symm.trans h⟩)
  · exact .inr (.inr ⟨e, hs.symm.trans h⟩)

theorem step_keeps_crcAcc {s t : State} (h : step s = .next t) (hc : ∀ e ∈ s.input.head?, CommandWithout writesCrc e) :
    t.crcAcc = s.crcAcc := by
  rcases step_of_commandWithout h hc with rfl | ⟨i, hw, ht⟩ | ⟨e, he⟩
  · rfl
  · exact (exec_frame ht).1 hw
  · cases he
    rfl

theorem step_keeps_fbuf {s t : State} (h : step s = .next t) (hc : ∀ e ∈ s.input.head?, CommandWithout writesFbuf e) :
    t.fbuf = s.fbuf := by
  rcases step_of_commandWithout h hc with rfl | ⟨i, hw, ht⟩ | ⟨e, he⟩
  · rfl
  · exact (exec_frame ht).2 hw
  · cases he
    rfl

theorem step_keeps_status {s t : State} (h : step s = .next t) (hc : ∀ e ∈ s.input.head?, LegalStRead e) :
    t.status = s.status := by
  cases hi : s.input with
  | nil =>
    cases (step_of_empty hi).symm.trans h
    rfl
  | cons e rest =>
    obtain ⟨c, rfl, hd, hdin⟩ := hc e (by simp [hi])
    have hs : step s = .next (s.respond (wordToBytes s.status.word)) :=
      (step_of_decode hi hd).trans (exec_stRead ((din_of_command hi).trans hdin))
    cases hs.symm.trans h
    rfl

/-! The first `n` events at the port. -/

theorem forall_mem_take_succ {α : Type} {p : α → Prop} (l : List α) (n : Nat) :
    (∀ e ∈ l.take (n + 1), p e) ↔ (∀ e ∈ l.head?, p e) ∧ ∀ e ∈ l.tail.take n, p e := by
  cases l <;> simp

/-- What a step keeps when the event it takes, if any, satisfies `p`, a run keeps when all the events it takes do. -/
theorem run_keeps {α : Type} {f : State → α} {p : PortEvent → Prop}
    (hstep : ∀ {s t : State}, step s = .next t → (∀ e ∈ s.input.head?, p e) → f t = f s) {n : Nat} {s t : State}
    (h : Host.Core.run core n s = .next t) (hp : ∀ e ∈ s.input.take n, p e) : f t = f s := by
  induction n generalizing s with
  | zero =>
    cases h
    rfl
  | succ n ih =>
    obtain ⟨u, hu⟩ := everyStepAnswersANextState s
    obtain ⟨hhead, htail⟩ := (forall_mem_take_succ s.input n).mp hp
    calc f t = f u := ih ((run_succ hu).symm.trans h) (step_input hu ▸ htail)
      _ = f s := hstep hu hhead

/-- Settles O24: each of the three items is kept step by step. -/
theorem onlyInterferingCommandsDisturbASequence : Obligations.OnlyInterferingCommandsDisturbASequence :=
  fun _ _ _ h => ⟨run_keeps step_keeps_crcAcc h, fun hp a => congrArg (·.read a) (run_keeps step_keeps_fbuf h hp),
    run_keeps step_keeps_status h⟩

end Sys2Proof.Proofs
end

section
/-! SUPPORT. The invariant of the block (10_state.md sections 2 and 3): the reset state satisfies it, and so does every
state in which a command ends, since each end of a command is a response on a legal STATUS. -/

namespace Sys2Proof.Proofs

open Sys2Proof Sys2Proof.Machine

/-! The values of STATUS that a command leaves. -/

/-- STATUS after a success is legal. -/
theorem succeeded_legal (st : Status) : st.succeeded.legal = true := rfl

/-- R203's INDEX column: a command raises an error with the index of a record, or with 0xFF. -/
theorem index_of_mayRaise {i : Instr} {e : CmdError} (h : mayRaise i e = true) :
    recordIndex e.index = true ∨ noIndex e.index = true := by
  cases e with
  | colorMode k | ledMode k =>
    cases i with
    | recEnc | recDec =>
      exact .inr (by simpa [mayRaise, CmdError.ordinalAt, CmdError.rangeAt, CmdError.index] using h)
    | frmBuild _ _ _ | frmParse =>
      exact .inl (by simpa [mayRaise, CmdError.ordinalAt, CmdError.rangeAt, CmdError.index] using h)
    | _ => cases h
  | colorRange k =>
    cases i with
    | recEnc => exact .inr h
    | frmBuild _ _ _ => exact .inl h
    | _ => cases h
  | _ => exact .inr rfl

/-- STATUS after an error with such an index is legal: class and cause are those of one row of R203. -/
theorem failed_legal (st : Status) {e : CmdError} (h : recordIndex e.index = true ∨ noIndex e.index = true) :
    (st.failed e).legal = true := by
  cases e with
  | colorMode k | ledMode k | colorRange k => exact Bool.or_eq_true_iff.mpr h
  | _ => rfl

/-! The invariant at the end of a command. -/

/-- A response on a legal STATUS that reports an error only with an empty DOUT, or with STATUS itself as DOUT. -/
theorem respond_inv {s : State} {out : List Byte} (hwf : s.fbuf.wf = true) (hin : s.fbuf.insideFbuf = true)
    (hst : s.status.legal = true) (hout : s.status.err = 0#3 ∨ out = [] ∨ out = wordToBytes s.status.word) :
    (s.respond out).Inv where
  canonical := hwf
  inside := hin
  status := hst
  response := by simpa [State.responseCurrent, or_assoc] using hout

/-- The meaning of a command keeps the invariant, by its three ends. -/
theorem exec_keeps_inv {i : Instr} {s t : State} (hs : s.Inv) (h : exec i s = .next t) : t.Inv := by
  have hE := exec_ends i s
  rw [h] at hE
  generalize hr : (Host.Outcome.next t : Result) = r at hE
  cases hE with
  | error e k he =>
    cases hr
    exact respond_inv hs.canonical hs.inside (failed_legal _ (index_of_mayRaise he)) (.inr (.inl rfl))
  | success c m k out _ _ _ hwf hin =>
    cases hr
    exact respond_inv (hwf hs.canonical) (hin hs.inside) (succeeded_legal _) (.inl rfl)
  | kept =>
    cases hr
    exact respond_inv hs.canonical hs.inside hs.status (.inr (.inr rfl))

/-- The error of an illegal word keeps the invariant: neither of the two carries a record's index. -/
theorem raise_illegal_keeps_inv {e : CmdError} {s t : State} (hs : s.Inv) (he : e = .opsel ∨ e = .reservedField)
    (h : raise e s = .next t) : t.Inv := by
  have hindex : noIndex e.index = true := by rcases he with rfl | rfl <;> rfl
  cases h
  exact respond_inv hs.canonical hs.inside (failed_legal _ (.inr hindex)) (.inr (.inl rfl))

/-- A reset request is taken whatever the state (R230). -/
theorem step_of_reset {s : State} {rest : List PortEvent} (h : s.input = .reset :: rest) :
    step s = .next { State.reset with input := rest } := by
  simp only [step, h, takeReset, List.tail_cons]

/-! The statements. -/

/-- Settles O2. -/
theorem resetSatisfiesTheInvariant : Obligations.ResetSatisfiesTheInvariant :=
  ⟨reset_fbuf_wf.1, reset_fbuf_wf.2, rfl, rfl⟩

/-- Settles O3, by the four things a step can do: a wait changes no item, a reset restores the reset state, a command
ends in one of its three ways, and an illegal word raises its error. -/
theorem everyStepKeepsTheInvariant : Obligations.EveryStepKeepsTheInvariant := by
  intro s t hs h
  rcases step_cases s with ⟨-, hstep⟩ | ⟨rest, -, hstep⟩ | ⟨_, _, i, -, -, hstep⟩ | ⟨_, _, e, -, -, he, hstep⟩
  · cases hstep.symm.trans h
    exact ⟨hs.canonical, hs.inside, hs.status, rfl⟩
  · cases hstep.symm.trans h
    obtain ⟨hwf, hin, hst, hresp⟩ := resetSatisfiesTheInvariant
    exact ⟨hwf, hin, hst, hresp⟩
  · exact exec_keeps_inv hs (hstep.symm.trans h)
  · exact raise_illegal_keeps_inv hs he (hstep.symm.trans h)

/-- Settles O4: the step leaves the reset state, whose values are those of R29's table (O1). -/
theorem resetRequestRestoresEveryItemOfState : Obligations.ResetRequestRestoresEveryItemOfState := by
  intro s rest h
  obtain ⟨hcrc, hfbuf, -, -, -, -, hword⟩ := resetLeavesTheValuesOfTheTable
  exact ⟨_, step_of_reset h, hcrc, hfbuf, hword, rfl, rfl⟩

/-- Settles O11: each word is the encoding of the command beside it. -/
theorem wordsOfTheSpecDecode : Obligations.WordsOfTheSpecDecode :=
  ⟨decode_encode (.qntCh 0x80#8), decode_encode (.qntRgb 0xFF#8 0x80#8 0x12#8),
    decode_encode (.dqnHex 0x07#8 0x04#8 0x00#8), decode_encode .qntHex, decode_encode .recEnc,
    decode_encode (.crcByte 0x31#8), decode_encode (.frmBuild 0x02#8 0xAB#8 0xCD#8), decode_encode .frmParse,
    decode_encode .stRead⟩

end Sys2Proof.Proofs
end
